-- ==== Sys2Proof/Word.lean ====
section
/-! DEFINITION. The unit's two bit-vector widths (00_scope.md R8: a byte is 8 bits, a word is 32 bits). -/

namespace Sys2Proof

/-- A byte (R8). -/
abbrev Byte := BitVec 8

/-- A word: every register of the register map, a command word, a checksum word, the accumulator (R8, R20). -/
abbrev Word := BitVec 32

end Sys2Proof
end

