-- ==== Sys2Proof/Config.lean ====
section
/-! DEFINITION. What an implementation fixes and what the spec leaves open: the parameters of 00_scope.md R6, the
block-cipher parameter CIPHER of R12 and the free values. Every `opaque` below has NO BODY: nothing in Lean evaluates it
or proves a value of it. -/

namespace Sys2Proof

/-- An 8-byte cipher block, an ordered sequence of 8 bytes with no word interpretation; `b0` is the byte at the lowest
address (00_scope.md R11, 20_memory.md R62). -/
structure Block where
  b0 : Byte
  b1 : Byte
  b2 : Byte
  b3 : Byte
  b4 : Byte
  b5 : Byte
  b6 : Byte
  b7 : Byte
deriving DecidableEq, Repr

/-- Byte `k` of a block, k = 0 .. 7, in ascending address order. -/
def Block.get (b : Block) (k : Nat) : Byte :=
  match k with
  | 0 => b.b0
  | 1 => b.b1
  | 2 => b.b2
  | 3 => b.b3
  | 4 => b.b4
  | 5 => b.b5
  | 6 => b.b6
  | _ => b.b7

/-- The parameter record CIPHER of 00_scope.md R12 for a unit whose keys have at most `keyMax` bytes. `inv` is the one
named law CIPHER_INV; no other law is assumed. -/
structure Cipher (keyMax : Nat) where
  /-- The type of key schedules. -/
  KSched : Type
  /-- KS_E, the encrypt-direction key schedule. -/
  ksE : List Byte → KSched
  /-- KS_D, the decrypt-direction key schedule. -/
  ksD : List Byte → KSched
  /-- E, the block encryption. -/
  enc : KSched → Block → Block
  /-- D, the block decryption. -/
  dec : KSched → Block → Block
  /-- CIPHER_INV: for every key of length 1..KEY_MAX_BYTES and every block, D(KS_D(k), E(KS_E(k), b)) = b. -/
  inv : ∀ (k : List Byte) (b : Block), 1 ≤ k.length → k.length ≤ keyMax → dec (ksD k) (enc (ksE k) b) = b

/-- A witness that the law can be met. It only inhabits the type of `Config.cipherDraw`; it is not the unit's cipher. -/
def Cipher.identity (keyMax : Nat) : Cipher keyMax where
  KSched := Unit
  ksE _ := ()
  ksD _ := ()
  enc _ b := b
  dec _ b := b
  inv _ _ _ _ := rfl

/-- The unspecified choice of CIPHER (R12, 93_implementation_defined.md P13); the argument only shows that there is one. -/
opaque Config.cipherDraw (keyMax : Nat) [Inhabited (Cipher keyMax)] : Cipher keyMax

/-- CIPHER, the OPEN block primitive of a unit with KEY_MAX_BYTES = `keyMax` (R6, R12). DESIGN CHOICE (log 2), safe: only
the law is known of it. -/
def Config.cipher (keyMax : Nat) : Cipher keyMax := @Config.cipherDraw keyMax ⟨Cipher.identity keyMax⟩

/-- The free choice behind DATA_BYTES. -/
opaque Config.dataBytesDraw : Nat

/-- The free choice behind NUM_SESSIONS. -/
opaque Config.numSessionsDraw : Nat

/-- The free choice behind KEY_MAX_BYTES. -/
opaque Config.keyMaxDraw : Nat

/-- The bytes of FALLBACK_KEY, unspecified (R6; 91_not_in_source.md N1). -/
opaque Config.fallbackByte : Nat → Byte

/-- DATA_BYTES (R6): some multiple of 4 with 128 ≤ DATA_BYTES ≤ 0x0010_0000; every such value is possible. -/
def Config.dataBytes : Nat := Config.dataBytesDraw % 262113 * 4 + 128

/-- NUM_SESSIONS (R6): some number from 1 to 16; every one is possible. -/
def Config.numSessions : Nat := Config.numSessionsDraw % 16 + 1

/-- KEY_MAX_BYTES (R6): some number from 16 to DATA_BYTES; every one is possible. -/
def Config.keyMaxBytes : Nat := Config.keyMaxDraw % (Config.dataBytes - 15) + 16

/-- FALLBACK_KEY (R6): 16 bytes. -/
def Config.fallbackKey : List Byte := (List.range 16).map Config.fallbackByte

/-- RAM_INIT: the byte that reset number `epoch` draws for DATA byte `addr` (70_reset_and_hazards.md R231). -/
opaque Config.ramInit : (epoch addr : Nat) → Byte

/-- The `n`-th unspecified read value of the host port: DATA read while BUSY (20_memory.md R65), data of a bus error
(R67). -/
opaque Config.readDraw : (n : Nat) → Word

/-- The value of a host variable that nothing has assigned (30_encoding.md R89 gives none). -/
opaque Config.hostVarInit : (v : Nat) → Word

/-- RAM_BASE (00_scope.md R6; 20_memory.md R61): the host-port offset of DATA[0]. -/
def Config.ramBase : Nat := 0x1000

/-- The parameters of R6 that are plain data and arguments of the model. NUM_SESSIONS is the length of the slot file. -/
structure Params where
  /-- DATA_BYTES. -/
  dataBytes : Nat
  /-- KEY_MAX_BYTES. -/
  keyMaxBytes : Nat
  /-- FALLBACK_KEY. -/
  fallbackKey : List Byte
deriving DecidableEq, Repr

/-- The ranges R6 states for the parameters. -/
abbrev Params.legal (p : Params) : Prop :=
  p.dataBytes % 4 = 0 ∧ 128 ≤ p.dataBytes ∧ p.dataBytes ≤ 0x100000 ∧
  16 ≤ p.keyMaxBytes ∧ p.keyMaxBytes ≤ p.dataBytes ∧ p.fallbackKey.length = 16

/-- The parameters of the unit as built: legal, otherwise unknown. -/
def Config.params : Params where
  dataBytes := Config.dataBytes
  keyMaxBytes := Config.keyMaxBytes
  fallbackKey := Config.fallbackKey

end Sys2Proof
end

