-- ==== Sys2Proof/Syntax.lean ====
section
/-! DEFINITION. The unit's commands, one constructor per row of spec/opcode_table.json (30_encoding.md R84, R87). -/

namespace Sys2Proof

/-- A command. `slot` is the 4-bit SLOT field, CMD[11:8] (30_encoding.md R80, R81); window and key operands are not part
of the command (R88). -/
inductive Instr where
  /-- SESS.INITK s: session in slot s from an explicit key (40_session.md R103). -/
  | sessInitk (slot : BitVec 4)
  /-- SESS.INITF s: session in slot s from the fallback key (R104). -/
  | sessInitf (slot : BitVec 4)
  /-- SESS.CLOSE s: end the session in slot s (R105). -/
  | sessClose (slot : BitVec 4)
  /-- BC.ENC s: encrypt the window block by block (R107). -/
  | bcEnc (slot : BitVec 4)
  /-- BC.DEC s: decrypt the window block by block (R108). -/
  | bcDec (slot : BitVec 4)
  /-- CK.VERIFY: check the window's trailing checksum word (41_checksum.md R132). -/
  | ckVerify
  /-- CK.APPEND: store the window's checksum word (R133). -/
  | ckAppend
  /-- OBF.ENC: obfuscate the window (42_obfuscator.md R151). -/
  | obfEnc
  /-- OBF.DEC: undo OBF.ENC (R155). -/
  | obfDec
  /-- MOD.DESC: descramble a 128-byte modulus (43_descrambler.md R172). -/
  | modDesc
deriving DecidableEq, Repr

end Sys2Proof
end

