-- ==== Sys2Proof/WellFormed.lean ====
section
/-! DEFINITION. Which commands a unit with a given NUM_SESSIONS accepts: condition 3 of 30_encoding.md R85. The other
conditions of R85 are about words and stand in Decode. -/

namespace Sys2Proof

/-- The session slot a command names, if it names one (30_encoding.md R84, column "uses SLOT"). -/
def Instr.slot? : Instr → Option (BitVec 4)
  | .sessInitk slot => some slot
  | .sessInitf slot => some slot
  | .sessClose slot => some slot
  | .bcEnc slot => some slot
  | .bcDec slot => some slot
  | .ckVerify => none
  | .ckAppend => none
  | .obfEnc => none
  | .obfDec => none
  | .modDesc => none

/-- The commands that use the window `[off, off+size)` (30_encoding.md R81, 60_exceptions.md R203). -/
def Instr.usesWindow : Instr → Bool
  | .sessInitk _ => true
  | .sessInitf _ => false
  | .sessClose _ => false
  | .bcEnc _ => true
  | .bcDec _ => true
  | .ckVerify => true
  | .ckAppend => true
  | .obfEnc => true
  | .obfDec => true
  | .modDesc => true

/-- R85 condition 3: a command that names a slot names one below NUM_SESSIONS. -/
def Instr.wf (numSessions : Nat) (i : Instr) : Bool :=
  match i.slot? with
  | some slot => decide (slot.toNat < numSessions)
  | none => true

end Sys2Proof
end

