-- ==== Sys2Proof/Decode.lean ====
section
/-! DEFINITION. Decode of a command word (30_encoding.md R80, R85, R86), total on every 32-bit word and rejecting by name;
after it the encoder and the rows of the opcode table (R87). -/

namespace Sys2Proof

/-- Why a word is not well-formed (30_encoding.md R86); each completes with ERR_BAD_CMD. -/
inductive Reject where
  /-- A nonzero bit in R0 = v[7:4] or R1 = v[31:12]. -/
  | reservedBits
  /-- OP 0x0 or 0xB to 0xF. -/
  | reservedOp
  /-- A nonzero SLOT with OP 0x6 to 0xA. -/
  | slotNotZero
  /-- A SLOT not below NUM_SESSIONS with OP 0x1 to 0x5. -/
  | slotOutOfRange
deriving DecidableEq, Repr

/-- OP, v[3:0] (R80). -/
def opField (v : Word) : BitVec 4 := v.extractLsb' 0 4

/-- R0, v[7:4] (R80). -/
def r0Field (v : Word) : BitVec 4 := v.extractLsb' 4 4

/-- SLOT, v[11:8] (R80). -/
def slotField (v : Word) : BitVec 4 := v.extractLsb' 8 4

/-- R1, v[31:12] (R80). -/
def r1Field (v : Word) : BitVec 20 := v.extractLsb' 12 20

/-- A command without a slot operand needs SLOT = 0 (R85 condition 4). -/
def noSlot (slot : BitVec 4) (i : Instr) : Except Reject Instr :=
  if slot = 0 then .ok i else .error .slotNotZero

/-- The command of the OP field (R84). -/
def decodeOp (op slot : BitVec 4) : Except Reject Instr :=
  match op.toNat with
  | 0x1 => .ok (.sessInitk slot)
  | 0x2 => .ok (.sessInitf slot)
  | 0x3 => .ok (.sessClose slot)
  | 0x4 => .ok (.bcEnc slot)
  | 0x5 => .ok (.bcDec slot)
  | 0x6 => noSlot slot .ckVerify
  | 0x7 => noSlot slot .ckAppend
  | 0x8 => noSlot slot .obfEnc
  | 0x9 => noSlot slot .obfDec
  | 0xA => noSlot slot .modDesc
  | _ => .error .reservedOp

/-- The row of the opcode table a word belongs to: conditions 1, 2 and 4 of R85 (the match and mask of R87). -/
def decodeRow (v : Word) : Except Reject Instr :=
  if r0Field v = 0 ∧ r1Field v = 0 then decodeOp (opField v) (slotField v) else .error .reservedBits

/-- Decode of a command word on a unit with `numSessions` slots (R85): the row, then condition 3. -/
def decode (numSessions : Nat) (v : Word) : Except Reject Instr :=
  match decodeRow v with
  | .ok i => if i.wf numSessions then .ok i else .error .slotOutOfRange
  | .error e => .error e

/-- The OP code of a command (R84). -/
def Instr.op : Instr → BitVec 4
  | .sessInitk _ => 0x1
  | .sessInitf _ => 0x2
  | .sessClose _ => 0x3
  | .bcEnc _ => 0x4
  | .bcDec _ => 0x5
  | .ckVerify => 0x6
  | .ckAppend => 0x7
  | .obfEnc => 0x8
  | .obfDec => 0x9
  | .modDesc => 0xA

/-- The command word of a command (R80, R87): R1 = 0, SLOT, R0 = 0, OP. -/
def encode (i : Instr) : Word :=
  (0 : BitVec 20) ++ (i.slot?.getD 0) ++ (0 : BitVec 4) ++ i.op

/-- One row of the table of encoded forms, 30_encoding.md R87: a word belongs to the row when its bits under `mask` are
`pattern`; `make` builds the command from the SLOT field. -/
structure OpcodeRow where
  pattern : Word
  mask : Word
  make : BitVec 4 → Instr

/-- The table of R87, row by row. -/
def opcodeTable : List OpcodeRow :=
  [ ⟨0x00000001, 0xFFFFF0FF, .sessInitk⟩,
    ⟨0x00000002, 0xFFFFF0FF, .sessInitf⟩,
    ⟨0x00000003, 0xFFFFF0FF, .sessClose⟩,
    ⟨0x00000004, 0xFFFFF0FF, .bcEnc⟩,
    ⟨0x00000005, 0xFFFFF0FF, .bcDec⟩,
    ⟨0x00000006, 0xFFFFFFFF, fun _ => .ckVerify⟩,
    ⟨0x00000007, 0xFFFFFFFF, fun _ => .ckAppend⟩,
    ⟨0x00000008, 0xFFFFFFFF, fun _ => .obfEnc⟩,
    ⟨0x00000009, 0xFFFFFFFF, fun _ => .obfDec⟩,
    ⟨0x0000000A, 0xFFFFFFFF, fun _ => .modDesc⟩ ]

/-- A word belongs to a row (R87). -/
abbrev OpcodeRow.Selects (r : OpcodeRow) (v : Word) : Prop := v &&& r.mask = r.pattern

/-- The command the decoder reads from the low `nbits` bits of `w`, the bits above being 0. The unit stores a command word
whole in CMD (10_state.md R25), so there is no byte order to undo; NUM_SESSIONS, a parameter and no part of an encoding,
is not applied here (log 12). -/
def decodeTableWord (nbits w : Nat) : Option Instr :=
  match decodeRow (BitVec.ofNat 32 (w % 2 ^ nbits)) with
  | .ok i => some i
  | .error _ => none

end Sys2Proof
end

