-- ==== Sys2Proof/Machine/State.lean ====
section
/-! DEFINITION. The machine's state as plain data: the unit's state of 10_state.md R35, the parameters of 00_scope.md R6,
and the model's own fields for the two agents (00_scope.md R15). -/

namespace Sys2Proof.Machine

/-- The result codes of STATUS.RESULT (60_exceptions.md R202). Codes 7 to 15 are never produced. -/
inductive Result where
  | ok
  | errRange
  | errValidation
  | errBadCmd
  | errNoSession
  | errSessionActive
  | errKeyLen
deriving DecidableEq, Repr

/-- The causes of a bus error, a host fault that is never cleared (20_memory.md R67, 60_exceptions.md R220). DESIGN CHOICE
(log 7): `State.hostFault` records it and no step answers one. Safe for a claim that takes "no bus error" as a premise,
unsafe for a claim that a run is not stopped. -/
inductive Fault where
  /-- Raised by the host port: an access to an unmapped offset (R61). Safe. -/
  | unmapped (off : Nat)
  /-- Raised by the host port: a width R64 does not accept there, a byte access to a register included. Safe. -/
  | badWidth (bits off : Nat)
  /-- Raised by the host port: a misaligned 32-bit access (R64). Safe. -/
  | misaligned (off : Nat)
deriving DecidableEq, Repr

/-- Why a step is refused. The unit refuses nothing (60_exceptions.md R220). -/
inductive Refusal where
  /-- Raised by a command that has no meaning yet; every command has one. Safe. -/
  | notModelled (mnemonic : String)
  /-- Raised by the host agent: a program line that jumps to no line of the program (93_implementation_defined.md P16).
  Safe. -/
  | hostTarget (line : Nat)
deriving DecidableEq, Repr

/-- A session slot (10_state.md R30). The key schedules are functions of `key` and are recomputed. -/
structure Slot where
  /-- 1 means that the slot holds a session. -/
  valid : Bool
  /-- The session's key bytes, meaningful only while `valid`. -/
  key : List Byte
deriving DecidableEq, Repr

/-- A slot after reset: free, its key cleared (10_state.md R31). -/
def Slot.free : Slot := ⟨false, []⟩

/-- The DATA bytes that have been written since reset, addresses strictly rising; an unlisted address has no written
value. -/
abbrev Memory := List Host.Cell

/-- The DATA RAM (10_state.md R34). `epoch` says which reset drew RAM_INIT (70_reset_and_hazards.md R231). -/
structure Ram where
  cells : Memory
  epoch : Nat
deriving DecidableEq, Repr

/-- One host bus access at an offset from the unit's base (20_memory.md R64). `bits` is its width. An 8-bit write carries
its byte in the low 8 bits of `v`. -/
inductive Access where
  | read (bits off : Nat)
  | write (bits off : Nat) (v : Word)
deriving DecidableEq, Repr

/-- A host variable (30_encoding.md R89), numbered; `varT` is the variable t of POLL. -/
abbrev Var := Nat

/-- The variable t that POLL writes (R89). -/
def varT : Var := 0

/-- The lines of a host program (R89). Lines are numbered from 1. -/
inductive HostLine where
  /-- `W32 <off>, <v>`. -/
  | w32 (off : Nat) (v : Word)
  /-- `W8 <off>, <b>`. -/
  | w8 (off : Nat) (b : Byte)
  /-- `x <- R32 <off>`. -/
  | r32 (x : Var) (off : Nat)
  /-- `ISSUE <command>`. -/
  | issue (i : Instr)
  /-- `POLL`. -/
  | poll
  /-- `if (x & m) != 0 goto line`. -/
  | ifSet (x : Var) (m : Word) (line : Nat)
  /-- `if (x & m) == 0 goto line`. -/
  | ifClear (x : Var) (m : Word) (line : Nat)
  /-- `goto line`. -/
  | goto (line : Nat)
  /-- `halt`. -/
  | halt
deriving DecidableEq, Repr

/-- A numbered line of a host program: a line of R89 or a pseudo-command of R90. -/
inductive ProgramLine where
  | plain (l : HostLine)
  /-- `SETWIN off, size`. -/
  | setwin (off size : Word)
  /-- `BC.ENC.ALL s, len`. -/
  | bcEncAll (slot : BitVec 4) (len : Word)
  /-- `BC.DEC.ALL s, len`. -/
  | bcDecAll (slot : BitVec 4) (len : Word)
  /-- `OBF.ENC.K key`. -/
  | obfEncK (key : Word)
  /-- `RUN <command>`. -/
  | run (i : Instr)
deriving DecidableEq, Repr

/-- The host agent (00_scope.md R15): its program, the number of the next line, the rest of the line in hand, its
variables (assigned ones, listed once each) and whether it has halted. The model's own, no state of the unit. -/
structure HostAgent where
  program : List ProgramLine
  line : Nat
  todo : List HostLine
  vars : List (Var × Word)
  halted : Bool
deriving DecidableEq, Repr

/-- One move of the interleaving (20_memory.md R71). -/
inductive Event where
  /-- The engine's turn: completion if a command is in flight. -/
  | engine
  /-- The host agent's turn. -/
  | host
  /-- A bus access that reaches the port from another master; the unit takes all masters as one host (60_exceptions.md
  R216). -/
  | access (a : Access)
  /-- The reset input is asserted (70_reset_and_hazards.md R230). -/
  | reset
deriving DecidableEq, Repr

/-- The whole state. The fields down to `ram` are the unit's (10_state.md R35); `cfg` holds parameters no step writes; the
rest is the model's own. -/
structure State where
  /-- CTRL.IE (R23). -/
  ie : Bool
  /-- STATUS.BUSY (R24). -/
  busy : Bool
  /-- STATUS.DONE (R24). -/
  done : Bool
  /-- STATUS.CK_OK (R24). -/
  ckOk : Bool
  /-- STATUS.HAZ (R24). -/
  haz : Bool
  /-- STATUS.RESULT (R24). -/
  result : Result
  /-- CMD (R25). -/
  cmd : Word
  /-- OFFSET (R26). -/
  offset : Word
  /-- SIZE (R27). -/
  size : Word
  /-- OBF_KEY (R28). -/
  obfKey : Word
  /-- slot[0] to slot[NUM_SESSIONS-1] (R30); NUM_SESSIONS is the list's length. -/
  slots : List Slot
  /-- The DATA RAM (R34). -/
  ram : Ram
  /-- The parameters (00_scope.md R6). DESIGN CHOICE (log 1). -/
  cfg : Params
  /-- How many unspecified read values were drawn. DESIGN CHOICE (log 5). -/
  draws : Nat
  /-- The data of the host port's last read. DESIGN CHOICE (log 14). -/
  rdata : Word
  /-- The first bus error, never cleared (20_memory.md R67). DESIGN CHOICE (log 7). -/
  hostFault : Option Fault
  /-- The host agent. DESIGN CHOICE (log 9). -/
  host : HostAgent
  /-- The moves still to come before the default order takes over. DESIGN CHOICE (log 6). -/
  inbox : List Event
deriving DecidableEq, Repr

/-- The machine right after reset (70_reset_and_hazards.md R230, R231), with no host program and no pending move. -/
def State.reset : State where
  ie := false
  busy := false
  done := false
  ckOk := false
  haz := false
  result := .ok
  cmd := 0
  offset := 0
  size := 0
  obfKey := 0
  slots := List.replicate Config.numSessions Slot.free
  ram := ⟨[], 0⟩
  cfg := Config.params
  draws := 0
  rdata := 0
  hostFault := none
  host := ⟨[], 1, [], [], false⟩
  inbox := []

end Sys2Proof.Machine
end

