-- ==== Sys2Proof/Machine/Ops.lean ====
section
/-! DEFINITION. The operations over the DATA RAM, the slot file and the command lifecycle that the meanings share: the
primitives of 00_scope.md R9, and issue, completion (the unit's whole exception mechanism), acknowledgement and reset of
60_exceptions.md and 70_reset_and_hazards.md. -/

namespace Sys2Proof.Machine

/-! ## Bytes and words -/

/-- The word of four bytes, the first the least significant (00_scope.md R9, `le32`). -/
def wordOfBytes (b0 b1 b2 b3 : Byte) : Word :=
  b0.zeroExtend 32 ||| (b1.zeroExtend 32 <<< 8) ||| (b2.zeroExtend 32 <<< 16) ||| (b3.zeroExtend 32 <<< 24)

/-- Byte lane `k` of a word: bits 8k+7 down to 8k (R9, `put_le32`; 20_memory.md R63). -/
def byteLane (v : Word) (k : Nat) : Byte := v.extractLsb' (8 * k) 8

/-! ## The written bytes: a list in canonical form -/

/-- The canonical form: addresses strictly rising. An unlisted address has no value, so no entry equals one. -/
abbrev Memory.wf (m : Memory) : Prop := (m.map Prod.fst).Pairwise (· < ·)

/-- The value written at `a` since reset, if any. -/
def Memory.lookup : Memory → Nat → Option Byte
  | [], _ => none
  | (k, v) :: m, a => if k = a then some v else Memory.lookup m a

/-- Write one byte, keeping the addresses rising. -/
def Memory.store : Memory → Nat → Byte → Memory
  | [], a, x => [(a, x)]
  | (k, v) :: m, a, x =>
    if a < k then (a, x) :: (k, v) :: m
    else if a = k then (a, x) :: m
    else (k, v) :: Memory.store m a x

/-! ## The DATA RAM -/

/-- DATA[a]: the byte written last, or the draw RAM_INIT made for it at the last reset (70_reset_and_hazards.md R231;
log 4). -/
def Ram.byte (r : Ram) (a : Nat) : Byte := (r.cells.lookup a).getD (Config.ramInit r.epoch a)

/-- DATA[a] <- x. -/
def Ram.put (r : Ram) (a : Nat) (x : Byte) : Ram := { r with cells := r.cells.store a x }

/-- `MemRead(a, n)` (00_scope.md R9): the n bytes from offset a up. -/
def Ram.read (r : Ram) (a n : Nat) : List Byte := (List.range n).map fun i => r.byte (a + i)

/-- `le32(a)` (R9). -/
def Ram.le32 (r : Ram) (a : Nat) : Word :=
  wordOfBytes (r.byte a) (r.byte (a + 1)) (r.byte (a + 2)) (r.byte (a + 3))

/-- `put_le32(a, v)` (R9). -/
def Ram.putLe32 (r : Ram) (a : Nat) (v : Word) : Ram :=
  (((r.put a (byteLane v 0)).put (a + 1) (byteLane v 1)).put (a + 2) (byteLane v 2)).put (a + 3) (byteLane v 3)

/-- The cipher block `MemRead(a, 8)`, bytes in ascending address order (40_session.md R106). -/
def Ram.block (r : Ram) (a : Nat) : Block :=
  ⟨r.byte a, r.byte (a + 1), r.byte (a + 2), r.byte (a + 3), r.byte (a + 4), r.byte (a + 5), r.byte (a + 6), r.byte (a + 7)⟩

/-- `MemWrite(a, 8, b)` for a cipher block. -/
def Ram.putBlock (r : Ram) (a : Nat) (b : Block) : Ram :=
  (((((((r.put a b.b0).put (a + 1) b.b1).put (a + 2) b.b2).put (a + 3) b.b3).put (a + 4) b.b4).put (a + 5) b.b5).put
    (a + 6) b.b6).put (a + 7) b.b7

/-- `for i in [0, n): x <- f i x`, i = 0 first (R9). -/
def forRange {α : Type} : (n : Nat) → (f : Nat → α → α) → α → α
  | 0, _, x => x
  | n + 1, f, x => f n (forRange n f x)

/-! ## The slot file -/

/-- slot[i] <- x. No other slot changes (10_state.md R30). -/
def State.setSlot (s : State) (slot : BitVec 4) (x : Slot) : State := { s with slots := s.slots.set slot.toNat x }

/-! ## The command lifecycle: issue, completion, acknowledgement -/

/-- What a meaning answers. -/
abbrev Outcome := Host.Outcome State Fault Refusal

/-- Issue of command word v, in one atomic step (60_exceptions.md R200). It does not decode v and leaves HAZ alone. -/
def State.issue (s : State) (v : Word) : State :=
  { s with cmd := v, busy := true, done := false, ckOk := false, result := .ok }

/-- The completion record, shared by every command (R201 item 4; 40_session.md R100, 41_checksum.md R130, 42_obfuscator.md
R150): RESULT <- code, DONE <- 1, BUSY <- 0 and CK_OK as the command says. HAZ is not written. -/
def State.complete (s : State) (code : Result) (ck : Bool) : State :=
  { s with busy := false, done := true, ckOk := ck, result := code }

/-- `raise code` (00_scope.md R9; 60_exceptions.md R202): the command ends with that code and writes no DATA byte and no
slot. -/
def State.raise (s : State) (code : Result) : Outcome := .next (s.complete code false)

/-- `complete OK` (40_session.md): RESULT = OK, CK_OK = 0. -/
def State.completeOk (s : State) : Outcome := .next (s.complete .ok false)

/-- The acknowledgement of a completion by writing 1 to STATUS bit 1 (R207): DONE <- 0. Nothing is restored. -/
def State.acknowledge (s : State) : State := { s with done := false }

/-- The reset input (70_reset_and_hazards.md R230 to R232): every register 0, every slot free, DATA drawn anew, a command
in flight abandoned. The parameters, the recorded host fault and the host agent are no state of the unit and stay
(log 13). -/
def State.resetUnit (s : State) : State :=
  { s with
    ie := false
    busy := false
    done := false
    ckOk := false
    haz := false
    result := .ok
    cmd := 0
    offset := 0
    size := 0
    obfKey := 0
    slots := List.replicate s.slots.length Slot.free
    ram := ⟨[], s.ram.epoch + 1⟩ }

end Sys2Proof.Machine
end

