-- ==== Sys2Proof/Machine/Operands.lean ====
section
/-! DEFINITION. The operands a command reads at completion (30_encoding.md R81): the window, the slot and its key
schedules; and the size conditions and element counts of the command families. -/

namespace Sys2Proof.Machine

/-- NUM_SESSIONS: the length of the slot file (10_state.md R30). -/
def State.numSessions (s : State) : Nat := s.slots.length

/-- `off = csr.OFFSET`, an unbounded natural number in window arithmetic (00_scope.md R9). -/
def State.off (s : State) : Nat := s.offset.toNat

/-- `size = csr.SIZE`. -/
def State.len (s : State) : Nat := s.size.toNat

/-- The window check of 60_exceptions.md R203: OFFSET + SIZE ≤ DATA_BYTES, the sum not wrapped. -/
def State.windowFits (s : State) : Bool := decide (s.off + s.len ≤ s.cfg.dataBytes)

/-- slot[i]. A slot that does not exist reads as free; no well-formed command names one (30_encoding.md R85). -/
def State.slotAt (s : State) (slot : BitVec 4) : Slot := s.slots.getD slot.toNat Slot.free

/-- The key lengths SESS.INITK accepts: 1 ≤ size ≤ KEY_MAX_BYTES (40_session.md R102). -/
def State.keyLenOk (s : State) : Bool := decide (1 ≤ s.len ∧ s.len ≤ s.cfg.keyMaxBytes)

/-- `E(KS_E(key), b)`: a block under slot key `key`'s encrypt schedule (40_session.md R107, 10_state.md R30). -/
def State.encBlock (s : State) (key : List Byte) (b : Block) : Block :=
  (Config.cipher s.cfg.keyMaxBytes).enc ((Config.cipher s.cfg.keyMaxBytes).ksE key) b

/-- `D(KS_D(key), b)`: a block under slot key `key`'s decrypt schedule (40_session.md R108). -/
def State.decBlock (s : State) (key : List Byte) (b : Block) : Block :=
  (Config.cipher s.cfg.keyMaxBytes).dec ((Config.cipher s.cfg.keyMaxBytes).ksD key) b

/-- The number of whole blocks in a window, floor(size / 8) (40_session.md R106). -/
def blockCount (size : Nat) : Nat := size / 8

/-- A valid checksum window: size mod 4 = 0 and size > 4 (41_checksum.md R131). -/
def checksumSizeOk (size : Nat) : Bool := decide (size % 4 = 0 ∧ 4 < size)

/-- The obfuscator's size condition, size ≥ 9 (42_obfuscator.md R150). -/
def obfSizeOk (size : Nat) : Bool := decide (9 ≤ size)

/-- The number n = floor((size - 9) / 4) of words on the obfuscator's grid (R153). -/
def obfWords (size : Nat) : Nat := (size - 9) / 4

/-- The descrambler's size condition, size = 128 (43_descrambler.md R170). -/
def modSizeOk (size : Nat) : Bool := decide (size = 128)

end Sys2Proof.Machine
end

