-- ==== Sys2Proof/Machine/Flags.lean ====
section
/-! DEFINITION. The register words the host reads: STATUS and its fields, CTRL, SESS_VALID (10_state.md R23, R24, R29), the
interrupt output (60_exceptions.md R210), and the effect of a host write on the control and status bits. -/

namespace Sys2Proof.Machine

/-- The 4-bit code of a result (60_exceptions.md R202). -/
def Result.code : Result → BitVec 4
  | .ok => 0
  | .errRange => 1
  | .errValidation => 2
  | .errBadCmd => 3
  | .errNoSession => 4
  | .errSessionActive => 5
  | .errKeyLen => 6

/-- The STATUS word (10_state.md R24): BUSY in bit 0, DONE in bit 1, CK_OK in bit 2, HAZ in bit 3, RESULT in bits 7:4,
bits 31:8 read 0. -/
def State.statusWord (s : State) : Word :=
  (0 : BitVec 24) ++ s.result.code ++ BitVec.ofBool s.haz ++ BitVec.ofBool s.ckOk ++ BitVec.ofBool s.done ++
    BitVec.ofBool s.busy

/-- The CTRL word (R23): IE in bit 0, bits 31:1 read 0. -/
def State.ctrlWord (s : State) : Word := (0 : BitVec 31) ++ BitVec.ofBool s.ie

/-- The valid bits of a slot file, slot 0 in bit 0. -/
def validBits : List Slot → Word
  | [] => 0
  | x :: rest => (validBits rest <<< 1) ||| (BitVec.ofBool x.valid).zeroExtend 32

/-- The SESS_VALID word (R29): bit s is slot[s].valid for s < NUM_SESSIONS, the bits above read 0. -/
def State.sessValidWord (s : State) : Word := validBits s.slots

/-- The interrupt output, level-sensitive and active high (60_exceptions.md R210). -/
def State.irq (s : State) : Bool := s.done && s.ie

/-- A host write of v to CTRL (10_state.md R23): IE takes bit 0, the reserved bits are ignored. -/
def State.writeCtrl (s : State) (v : Word) : State := { s with ie := v.getLsbD 0 }

/-- The HAZ half of a STATUS write (R24): a 1 in bit 3 clears HAZ. -/
def State.clearHaz (s : State) (v : Word) : State := if v.getLsbD 3 then { s with haz := false } else s

/-- A host write of v to STATUS (R24): a 1 in bit 1 clears DONE, a 1 in bit 3 clears HAZ, every other bit is ignored. -/
def State.writeStatus (s : State) (v : Word) : State :=
  (if v.getLsbD 1 then s.acknowledge else s).clearHaz v

/-- HAZ <- 1: a host access dropped or made unreliable by BUSY (R24, 20_memory.md R65). -/
def State.setHaz (s : State) : State := { s with haz := true }

end Sys2Proof.Machine
end

