-- ==== Sys2Proof/Machine/Checksum.lean ====
section
/-! DEFINITION. The meanings of the ChecksumCodec commands (41_checksum.md R132, R133). -/

namespace Sys2Proof.Machine

/-- The XOR fold of the `n` little-endian words from `off` up, starting from 0 (R132, R133). -/
def foldWords (r : Ram) (off n : Nat) : Word :=
  forRange n (fun j chk => chk ^^^ r.le32 (off + 4 * j)) 0

/-- CK.VERIFY (R132): CK_OK <- the fold of words 0 .. m-2 equals word m-1. No DATA byte is written (R135). -/
def execCkVerify (s : State) : Outcome :=
  if s.windowFits = false then s.raise .errRange
  else if checksumSizeOk s.len = false then s.raise .errValidation
  else .next (s.complete .ok (decide (foldWords s.ram s.off (s.len / 4 - 1) = s.ram.le32 (s.off + s.len - 4))))

/-- CK.APPEND (R133): fold words 0 .. m-3, fold in the word at off + size - 8, store at off + size - 4
(90_conflicts.md C1). -/
def execCkAppend (s : State) : Outcome :=
  if s.windowFits = false then s.raise .errRange
  else if checksumSizeOk s.len = false then s.raise .errValidation
  else State.completeOk { s with
    ram := s.ram.putLe32 (s.off + s.len - 4)
      (foldWords s.ram s.off (s.len / 4 - 2) ^^^ s.ram.le32 (s.off + s.len - 8)) }

end Sys2Proof.Machine
end

