-- ==== Sys2Proof/Machine/Descrambler.lean ====
section
/-! DEFINITION. The meaning of MOD.DESC (43_descrambler.md R172) and the modulus it leaves (R171). `buf[i]` is
DATA[off + i]. -/

namespace Sys2Proof.Machine

/-- `for i in [0, n): buf[dst + i] <- buf[dst + i] ^ buf[src + i]` (steps 1 to 3). -/
def xorRange (off dst src n : Nat) (r : Ram) : Ram :=
  forRange n (fun i r => r.put (off + dst + i) (r.byte (off + dst + i) ^^^ r.byte (off + src + i))) r

/-- `for i in [0, n): (buf[x + i], buf[y + i]) <- (buf[y + i], buf[x + i])` (step 4). -/
def swapRange (off x y n : Nat) (r : Ram) : Ram :=
  forRange n (fun i r => (r.put (off + x + i) (r.byte (off + y + i))).put (off + y + i) (r.byte (off + x + i))) r

/-- The four steps, each on what the earlier ones left. -/
def descramble (off : Nat) (r : Ram) : Ram :=
  swapRange off 0 77 4 (xorRange off 0 64 64 (xorRange off 13 52 4 (xorRange off 64 0 64 r)))

/-- The recovered modulus N: the 128 bytes from `off` read big-endian, buf[0] the most significant (R171). -/
def modulus (off : Nat) (r : Ram) : Nat := (r.read off 128).foldl (fun n b => n * 256 + b.toNat) 0

/-- MOD.DESC (R172). -/
def execModDesc (s : State) : Outcome :=
  if s.windowFits = false then s.raise .errRange
  else if modSizeOk s.len = false then s.raise .errValidation
  else State.completeOk { s with ram := descramble s.off s.ram }

end Sys2Proof.Machine
end

