-- ==== Sys2Proof/Machine/Obfuscator.lean ====
section
/-! DEFINITION. The meanings of the PacketObfuscator commands (42_obfuscator.md R151, R155). -/

namespace Sys2Proof.Machine

/-- One step of the encode loop at word `j` (R151): the word is added to the accumulator, then XORed with it. -/
def obfEncStep (off j : Nat) (x : Word × Ram) : Word × Ram :=
  let w := x.2.le32 (off + 4 * j)
  let acc := x.1 + w
  (acc, x.2.putLe32 (off + 4 * j) (w ^^^ acc))

/-- The encode loop over the grid words j = 1 .. n, upward (R151, R153). -/
def obfEncLoop (off n : Nat) (key : Word) (r : Ram) : Word × Ram :=
  forRange n (fun t x => obfEncStep off (t + 1) x) (key, r)

/-- One step of the decode loop at word `j` (R155): the stored word XOR the accumulator is the recovered word, which is
subtracted from the accumulator. The byte significance is that of `le32` (R154). -/
def obfDecStep (off j : Nat) (x : Word × Ram) : Word × Ram :=
  let w := x.2.le32 (off + 4 * j) ^^^ x.1
  (x.1 - w, x.2.putLe32 (off + 4 * j) w)

/-- The decode loop over the grid words j = n .. 1, downward (R155). -/
def obfDecLoop (off n : Nat) (seed : Word) (r : Ram) : Word × Ram :=
  forRange n (fun t x => obfDecStep off (n - t) x) (seed, r)

/-- OBF.ENC (R151): the grid words, then the final accumulator into the last 4 bytes. -/
def execObfEnc (s : State) : Outcome :=
  if s.windowFits = false then s.raise .errRange
  else if obfSizeOk s.len = false then s.raise .errRange
  else
    let x := obfEncLoop s.off (obfWords s.len) s.obfKey s.ram
    State.completeOk { s with ram := x.2.putLe32 (s.off + s.len - 4) x.1 }

/-- OBF.DEC (R155): seeded from the last 4 bytes, which it does not write. -/
def execObfDec (s : State) : Outcome :=
  if s.windowFits = false then s.raise .errRange
  else if obfSizeOk s.len = false then s.raise .errRange
  else State.completeOk { s with
    ram := (obfDecLoop s.off (obfWords s.len) (s.ram.le32 (s.off + s.len - 4)) s.ram).2 }

end Sys2Proof.Machine
end

