-- ==== Sys2Proof/Machine/Session.lean ====
section
/-! DEFINITION. The meanings of the BlockCipherSession commands (40_session.md R103 to R108), run in the completion step.
The checks stand in the order of 60_exceptions.md R204. -/

namespace Sys2Proof.Machine

/-- The block loop of R107 and R108: each of the `n` blocks from `off` up is replaced by its image under `f` (R106, R110). -/
def mapBlocks (f : Block → Block) (off n : Nat) (r : Ram) : Ram :=
  forRange n (fun k r => r.putBlock (off + 8 * k) (f (r.block (off + 8 * k)))) r

/-- SESS.INITK s (R103). -/
def execSessInitk (slot : BitVec 4) (s : State) : Outcome :=
  if s.windowFits = false then s.raise .errRange
  else if (s.slotAt slot).valid then s.raise .errSessionActive
  else if s.keyLenOk = false then s.raise .errKeyLen
  else (s.setSlot slot ⟨true, s.ram.read s.off s.len⟩).completeOk

/-- SESS.INITF s (R104): neither the window nor OBF_KEY is read. -/
def execSessInitf (slot : BitVec 4) (s : State) : Outcome :=
  if (s.slotAt slot).valid then s.raise .errSessionActive
  else (s.setSlot slot ⟨true, s.cfg.fallbackKey⟩).completeOk

/-- SESS.CLOSE s (R105): valid <- 0. The key bytes stay in the slot, unobservable (10_state.md R31; log 11). -/
def execSessClose (slot : BitVec 4) (s : State) : Outcome :=
  (s.setSlot slot { s.slotAt slot with valid := false }).completeOk

/-- BC.ENC s (R107). The `size mod 8` remainder bytes are neither read nor written (R109). -/
def execBcEnc (slot : BitVec 4) (s : State) : Outcome :=
  if s.windowFits = false then s.raise .errRange
  else if (s.slotAt slot).valid = false then s.raise .errNoSession
  else State.completeOk { s with ram := mapBlocks (s.encBlock (s.slotAt slot).key) s.off (blockCount s.len) s.ram }

/-- BC.DEC s (R108). -/
def execBcDec (slot : BitVec 4) (s : State) : Outcome :=
  if s.windowFits = false then s.raise .errRange
  else if (s.slotAt slot).valid = false then s.raise .errNoSession
  else State.completeOk { s with ram := mapBlocks (s.decBlock (s.slotAt slot).key) s.off (blockCount s.len) s.ram }

end Sys2Proof.Machine
end

