-- ==== Sys2Proof/Machine/Dispatch.lean ====
section
/-! DEFINITION. exec: one arm per command (30_encoding.md R84). -/

namespace Sys2Proof.Machine

def exec (i : Instr) (s : State) : Host.Outcome State Fault Refusal :=
  match i with
  | .sessInitk slot => Sys2Proof.Machine.execSessInitk slot s
  | .sessInitf slot => Sys2Proof.Machine.execSessInitf slot s
  | .sessClose slot => Sys2Proof.Machine.execSessClose slot s
  | .bcEnc slot => Sys2Proof.Machine.execBcEnc slot s
  | .bcDec slot => Sys2Proof.Machine.execBcDec slot s
  | .ckVerify => Sys2Proof.Machine.execCkVerify s
  | .ckAppend => Sys2Proof.Machine.execCkAppend s
  | .obfEnc => Sys2Proof.Machine.execObfEnc s
  | .obfDec => Sys2Proof.Machine.execObfDec s
  | .modDesc => Sys2Proof.Machine.execModDesc s

end Sys2Proof.Machine
end

