-- ==== Sys2Proof/Machine/Engine.lean ====
section
/-! DEFINITION. The engine's one step, completion (60_exceptions.md R201). -/

namespace Sys2Proof.Machine

/-- Completion of the command in flight: decode csr.CMD (30_encoding.md R85) and run the command's rule, or complete with
ERR_BAD_CMD (60_exceptions.md R202, R204). -/
def completion (s : State) : Outcome :=
  match decode s.numSessions s.cmd with
  | .ok i => exec i s
  | .error _ => s.raise .errBadCmd

/-- The engine's turn: completion is enabled only while BUSY = 1; otherwise the unit is idle and its state stays
(60_exceptions.md R201, R218). -/
def engineTurn (s : State) : Outcome := if s.busy then completion s else .next s

end Sys2Proof.Machine
end

