-- ==== Sys2Proof/Machine/HostPort.lean ====
section
/-! DEFINITION. The host port: the address map, widths and alignment, the register reads and writes, the busy hazard and
the bus error (10_state.md R20 to R29; 20_memory.md R61 to R68). -/

namespace Sys2Proof.Machine

/-- The host-visible registers (10_state.md R20). -/
inductive Reg where
  | ctrl
  | status
  | cmd
  | offset
  | size
  | obfKey
  | sessValid
deriving DecidableEq, Repr

/-- The register at a byte offset of the register map (R20). -/
def regAt (off : Nat) : Option Reg :=
  match off with
  | 0x000 => some .ctrl
  | 0x004 => some .status
  | 0x008 => some .cmd
  | 0x00C => some .offset
  | 0x010 => some .size
  | 0x014 => some .obfKey
  | 0x018 => some .sessValid
  | _ => none

/-- Where an access goes. -/
inductive Target where
  | reg (r : Reg)
  /-- DATA[a], one byte. -/
  | ramByte (a : Nat)
  /-- DATA[a .. a+3]. -/
  | ramWord (a : Nat)
deriving DecidableEq, Repr

/-- The route of an access inside the register range 0x000 to 0x01B: 32-bit and aligned only (20_memory.md R64). -/
def routeReg (bits off : Nat) : Except Fault Target :=
  if bits ≠ 32 then .error (.badWidth bits off)
  else match regAt off with
    | some r => .ok (.reg r)
    | none => .error (.misaligned off)

/-- The route of an access to DATA[a]: 8-bit at any offset, 32-bit at an aligned one (R64). -/
def routeRam (dataBytes bits a : Nat) : Except Fault Target :=
  if bits = 8 then .ok (.ramByte a)
  else if bits ≠ 32 then .error (.badWidth bits (Config.ramBase + a))
  else if a % 4 ≠ 0 then .error (.misaligned (Config.ramBase + a))
  else if a + 4 ≤ dataBytes then .ok (.ramWord a)
  else .error (.unmapped (Config.ramBase + a))

/-- The address map (R61): where an access of `bits` bits at offset `off` goes, or why it is a bus error (R67). -/
def route (dataBytes bits off : Nat) : Except Fault Target :=
  if off < 0x1C then routeReg bits off
  else if off < Config.ramBase then .error (.unmapped off)
  else if off < Config.ramBase + dataBytes then routeRam dataBytes bits (off - Config.ramBase)
  else .error (.unmapped off)

/-- The value a register reads as (10_state.md R23 to R29). -/
def State.readReg (s : State) : Reg → Word
  | .ctrl => s.ctrlWord
  | .status => s.statusWord
  | .cmd => s.cmd
  | .offset => s.offset
  | .size => s.size
  | .obfKey => s.obfKey
  | .sessValid => s.sessValidWord

/-- A host write of v to a register. While BUSY = 1, a write to CMD, OFFSET, SIZE or OBF_KEY is dropped and sets HAZ
(20_memory.md R65); a write to CMD otherwise issues (60_exceptions.md R200); a write to SESS_VALID is ignored. -/
def State.writeReg (s : State) (r : Reg) (v : Word) : State :=
  match r with
  | .ctrl => s.writeCtrl v
  | .status => s.writeStatus v
  | .cmd => if s.busy then s.setHaz else s.issue v
  | .offset => if s.busy then s.setHaz else { s with offset := v }
  | .size => if s.busy then s.setHaz else { s with size := v }
  | .obfKey => if s.busy then s.setHaz else { s with obfKey := v }
  | .sessValid => s

/-- The next unspecified read value (20_memory.md R65, R67; log 5). -/
def State.drawRead (s : State) : State := { s with rdata := Config.readDraw s.draws, draws := s.draws + 1 }

/-- The next unspecified read value of an 8-bit read. -/
def State.drawByte (s : State) : State :=
  { s with rdata := ((Config.readDraw s.draws).truncate 8).zeroExtend 32, draws := s.draws + 1 }

/-- A bus error (R67): no state of the unit changes, HAZ included. The first one is recorded and never cleared (R220;
log 7). -/
def State.busError (s : State) (f : Fault) : State :=
  { s with hostFault := match s.hostFault with | some g => some g | none => some f }

/-- An accepted host read. Reads have no side effect but the HAZ of a DATA read while BUSY (R65, R68). -/
def State.readTarget (s : State) : Target → State
  | .reg r => { s with rdata := s.readReg r }
  | .ramByte a => if s.busy then s.setHaz.drawByte else { s with rdata := (s.ram.byte a).zeroExtend 32 }
  | .ramWord a => if s.busy then s.setHaz.drawRead else { s with rdata := s.ram.le32 a }

/-- An accepted host write; a DATA write while BUSY is dropped and sets HAZ (R65). -/
def State.writeTarget (s : State) (t : Target) (v : Word) : State :=
  match t with
  | .reg r => s.writeReg r v
  | .ramByte a => if s.busy then s.setHaz else { s with ram := s.ram.put a (v.truncate 8) }
  | .ramWord a => if s.busy then s.setHaz else { s with ram := s.ram.putLe32 a v }

/-- One host bus access, one atomic step (R66). The data of a bus-error read is unspecified. -/
def hostAccess (a : Access) (s : State) : State :=
  match a with
  | .read bits off =>
    match route s.cfg.dataBytes bits off with
    | .ok t => s.readTarget t
    | .error f => (s.busError f).drawRead
  | .write bits off v =>
    match route s.cfg.dataBytes bits off with
    | .ok t => s.writeTarget t v
    | .error f => s.busError f

end Sys2Proof.Machine
end

