-- ==== Sys2Proof/Machine/HostProgram.lean ====
section
/-! DEFINITION. The host agent: host programs (30_encoding.md R89) and pseudo-commands (R90). One turn is one line, or one
bus access of a pseudo-command. The unit's state changes only by the bus accesses it performs. -/

namespace Sys2Proof.Machine

/-- The lines a program line stands for (R90): the first, and the rest of a pseudo-command. `SETWIN off, size` inside
another pseudo-command is its two writes. -/
def ProgramLine.expand : ProgramLine → HostLine × List HostLine
  | .plain l => (l, [])
  | .setwin off size => (.w32 0x00C off, [.w32 0x010 size])
  | .bcEncAll slot len => (.w32 0x00C 0, [.w32 0x010 len, .issue (.bcEnc slot)])
  | .bcDecAll slot len => (.w32 0x00C 0, [.w32 0x010 len, .issue (.bcDec slot)])
  | .obfEncK key => (.w32 0x014 key, [.issue .obfEnc])
  | .run i => (.issue i, [.poll])

/-- The one bus access a line performs, if any (R89); POLL's is one read of its loop. -/
def HostLine.access : HostLine → Option Access
  | .w32 off v => some (.write 32 off v)
  | .w8 off b => some (.write 8 off (b.zeroExtend 32))
  | .r32 _ off => some (.read 32 off)
  | .issue i => some (.write 32 0x008 (encode i))
  | .poll => some (.read 32 0x004)
  | .ifSet _ _ _ => none
  | .ifClear _ _ _ => none
  | .goto _ => none
  | .halt => none

/-- A host variable's value: what was assigned last, or an unspecified value (log 10). -/
def HostAgent.var (h : HostAgent) (x : Var) : Word :=
  match h.vars.find? (fun p => p.1 == x) with
  | some p => p.2
  | none => Config.hostVarInit x

/-- `x <- v`. -/
def HostAgent.setVar (h : HostAgent) (x : Var) (v : Word) : HostAgent :=
  { h with vars := (x, v) :: h.vars.filter (fun p => p.1 != x) }

/-- The program line with number `n`; lines are numbered from 1. -/
def HostAgent.lineAt (h : HostAgent) (n : Nat) : Option ProgramLine :=
  match n with
  | 0 => none
  | k + 1 => h.program[k]?

/-- `goto n`; a line that is not in the program is refused (93_implementation_defined.md P16). -/
def hostGoto (n : Nat) (s : State) : Outcome :=
  match s.host.lineAt n with
  | some _ => .next { s with host := { s.host with line := n, todo := [] } }
  | none => .refused (.hostTarget n)

/-- A 32-bit host read into a host variable. -/
def hostRead (x : Var) (off : Nat) (s : State) : State :=
  let t := hostAccess (.read 32 off) s
  { t with host := t.host.setVar x t.rdata }

/-- One pass of POLL's loop: read STATUS into t; while BUSY reads 1, POLL comes again (R89). -/
def hostPoll (s : State) : State :=
  let t := hostRead varT 0x004 s
  if t.rdata.getLsbD 0 then { t with host := { t.host with todo := .poll :: t.host.todo } } else t

/-- One line of a host program (R89). -/
def runHostLine (l : HostLine) (s : State) : Outcome :=
  match l with
  | .w32 off v => .next (hostAccess (.write 32 off v) s)
  | .w8 off b => .next (hostAccess (.write 8 off (b.zeroExtend 32)) s)
  | .r32 x off => .next (hostRead x off s)
  | .issue i => .next (hostAccess (.write 32 0x008 (encode i)) s)
  | .poll => .next (hostPoll s)
  | .ifSet x m n => if s.host.var x &&& m ≠ 0 then hostGoto n s else .next s
  | .ifClear x m n => if s.host.var x &&& m = 0 then hostGoto n s else .next s
  | .goto n => hostGoto n s
  | .halt => .next { s with host := { s.host with halted := true } }

/-- The line that comes next and the agent past it: the rest of the line in hand, else the next program line; none once the
host has halted or the program has no such line (log 9). -/
def HostAgent.fetch (h : HostAgent) : Option (HostLine × HostAgent) :=
  if h.halted then none
  else match h.todo with
    | l :: rest => some (l, { h with todo := rest })
    | [] =>
      match h.lineAt h.line with
      | none => none
      | some p => some (p.expand.1, { h with line := h.line + 1, todo := p.expand.2 })

/-- The host agent's turn: its next line, or nothing. -/
def hostTurn (s : State) : Outcome :=
  match s.host.fetch with
  | some (l, h) => runHostLine l { s with host := h }
  | none => .next s

end Sys2Proof.Machine
end

