-- ==== Sys2Proof/Machine/Interleave.lean ====
section
/-! DEFINITION. The interleaving of the two agents and the reset input (20_memory.md R71; 60_exceptions.md R205). -/

namespace Sys2Proof.Machine

/-- One move of the interleaving. -/
def move (e : Event) (s : State) : Outcome :=
  match e with
  | .engine => engineTurn s
  | .host => hostTurn s
  | .access a => .next (hostAccess a s)
  | .reset => .next s.resetUnit

/-- The move that comes next: the first listed one; with none listed, the engine's while a command is in flight, else the
host's. The default makes completion weakly fair (60_exceptions.md R219; log 6). -/
def State.nextEvent (s : State) : Event :=
  match s.inbox with
  | e :: _ => e
  | [] => if s.busy then .engine else .host

/-- The machine's next move, which takes it off the list. -/
def nextMove (s : State) : Outcome := move s.nextEvent { s with inbox := s.inbox.tail }

/-- The state in which command word `v` is in flight and the engine's completion comes next: an issue (60_exceptions.md
R200) with no move listed before it. -/
def State.inFlight (s : State) (v : Word) : State := { s.issue v with inbox := [] }

end Sys2Proof.Machine
end

