-- ==== Sys2Proof/Safety.lean ====
section
/-! DEFINITION. What counts as a legal state and a safe run, and the spec's results written over the DATA contents before a
command: the terms the statements use. -/

namespace Sys2Proof.Machine

/-! ## Legal states -/

/-- The invariant every step keeps. -/
structure State.Inv (s : State) : Prop where
  /-- The written bytes are in canonical form. -/
  canonical : s.ram.cells.wf
  /-- No byte outside DATA[0 .. DATA_BYTES-1] is ever written (20_memory.md R60). -/
  inRange : ∀ a ∈ s.ram.cells.map Prod.fst, a < s.cfg.dataBytes
  /-- The parameters are in the ranges of 00_scope.md R6. -/
  params : s.cfg.legal
  /-- 1 ≤ NUM_SESSIONS ≤ 16 (R6). -/
  sessions : 1 ≤ s.numSessions ∧ s.numSessions ≤ 16
  /-- A keyed slot's key has 1 to KEY_MAX_BYTES bytes (10_state.md R30). -/
  keys : ∀ x ∈ s.slots, x.valid = true → 1 ≤ x.key.length ∧ x.key.length ≤ s.cfg.keyMaxBytes
  /-- BUSY = 1 and DONE = 1 never hold together (R24). -/
  busyDone : s.busy = true → s.done = false
  /-- RESULT and CK_OK read 0 while BUSY = 1 (R24, 70_reset_and_hazards.md R238). -/
  busyResult : s.busy = true → s.result = .ok ∧ s.ckOk = false
  /-- CK_OK = 1 only after a CK.VERIFY that completed with RESULT = OK (R24). -/
  ckOkVerify : s.ckOk = true → s.cmd = encode .ckVerify ∧ s.result = .ok

/-! ## Safe runs -/

/-- No access was dropped or made unreliable by BUSY (60_exceptions.md R220, "HAZ = 0 at the end"). -/
def State.hazardFree (s : State) : Prop := s.haz = false

/-- No access got a bus error (20_memory.md R67, "no bus error"). -/
def State.noBusError (s : State) : Prop := s.hostFault = none

/-- An access the busy-hazard rule 70_reset_and_hazards.md R237 forbids between issue and observed completion: a write to
CMD, OFFSET, SIZE, OBF_KEY or DATA, or a read of DATA. -/
def Target.hazardous (isWrite : Bool) : Target → Bool
  | .reg .cmd => isWrite
  | .reg .offset => isWrite
  | .reg .size => isWrite
  | .reg .obfKey => isWrite
  | .reg .ctrl => false
  | .reg .status => false
  | .reg .sessValid => false
  | .ramByte _ => true
  | .ramWord _ => true

/-- Where an access goes, and whether it writes. -/
def Access.routed (a : Access) (dataBytes : Nat) : Bool × Except Fault Target :=
  match a with
  | .read bits off => (false, route dataBytes bits off)
  | .write bits off _ => (true, route dataBytes bits off)

/-- An access that the busy-hazard rule forbids while BUSY = 1. -/
def Access.hazardous (a : Access) (dataBytes : Nat) : Bool :=
  match (a.routed dataBytes).2 with
  | .ok t => t.hazardous (a.routed dataBytes).1
  | .error _ => false

/-- A host line jumps only to lines of an `n`-line program (30_encoding.md R89). -/
def HostLine.targetOk (n : Nat) : HostLine → Bool
  | .ifSet _ _ l => decide (1 ≤ l ∧ l ≤ n)
  | .ifClear _ _ l => decide (1 ≤ l ∧ l ≤ n)
  | .goto l => decide (1 ≤ l ∧ l ≤ n)
  | .w32 _ _ => true
  | .w8 _ _ => true
  | .r32 _ _ => true
  | .issue _ => true
  | .poll => true
  | .halt => true

/-- Every jump of the host's program, and of the line in hand, goes to a line of the program. -/
def HostAgent.targetsOk (h : HostAgent) : Prop :=
  (∀ p ∈ h.program, ∀ l ∈ p.expand.1 :: p.expand.2, l.targetOk h.program.length = true) ∧
  ∀ l ∈ h.todo, l.targetOk h.program.length = true

/-- The bus access that the next step performs, if its move is one: another master's, or that of the host's next line. -/
def State.nextAccess (s : State) : Option Access :=
  match s.nextEvent with
  | .engine => none
  | .host => s.host.fetch.bind fun p => p.1.access
  | .access a => some a
  | .reset => none

/-! ## The spec's results, over the DATA contents before the command -/

/-- w_0 ^ w_1 ^ ... ^ w_(n-1), the XOR fold of the window's first `n` words (41_checksum.md R134). -/
def xorOfWords (r : Ram) (off n : Nat) : Word :=
  (List.range n).foldl (fun chk j => chk ^^^ r.le32 (off + 4 * j)) 0

/-- The encode accumulator after word `j`: the key plus words 1 to j, modulo 2^32 (42_obfuscator.md R151). -/
def encAcc (r : Ram) (off : Nat) (key : Word) : Nat → Word
  | 0 => key
  | j + 1 => encAcc r off key j + r.le32 (off + 4 * (j + 1))

/-- The decode accumulator after `t` words, walking down from word `n` (R155). -/
def decAcc (r : Ram) (off n : Nat) (seed : Word) : Nat → Word
  | 0 => seed
  | t + 1 => decAcc r off n seed t - (r.le32 (off + 4 * (n - t)) ^^^ decAcc r off n seed t)

/-- Step 1 of 43_descrambler.md R172 on a buffer as a function of the index. -/
def descStep1 (b : Nat → Byte) (i : Nat) : Byte := if 64 ≤ i ∧ i < 128 then b i ^^^ b (i - 64) else b i

/-- Step 2: index 13 + i takes in index 52 + i, i < 4. -/
def descStep2 (b : Nat → Byte) (i : Nat) : Byte := if 13 ≤ i ∧ i < 17 then b i ^^^ b (i + 39) else b i

/-- Step 3. -/
def descStep3 (b : Nat → Byte) (i : Nat) : Byte := if i < 64 then b i ^^^ b (i + 64) else b i

/-- Step 4: the exchange of 0 .. 3 with 77 .. 80. -/
def descStep4 (b : Nat → Byte) (i : Nat) : Byte :=
  if i < 4 then b (i + 77) else if 77 ≤ i ∧ i < 81 then b (i - 77) else b i

/-- The descrambled buffer (R172). -/
def descrambled (b : Nat → Byte) : Nat → Byte := descStep4 (descStep3 (descStep2 (descStep1 b)))

end Sys2Proof.Machine
end

