-- ==== Sys2Proof/Certificates/Slice0/Obligations.lean ====
section
/-! DEFINITION. The statements for the provers, one definition each; OBLIGATIONS.json lists them. Statements only, no proofs. -/

section Statements

open Sys2Proof Sys2Proof.Machine

/-- For every NUM_SESSIONS and every command that is well-formed for it, decode of its command word is that command,
with every SLOT value. -/
def Obligations.DecodeInvertsEncode : Prop :=
  ∀ (n : Nat) (i : Instr), i.wf n = true → decode n (encode i) = .ok i

/-- For every NUM_SESSIONS and every 32-bit word that decodes to a command, encoding the command gives the word back, so
that decode reads every bit, and the command is well-formed. -/
def Obligations.EncodeInvertsDecode : Prop :=
  ∀ (n : Nat) (v : Word) (i : Instr), decode n v = .ok i → encode i = v ∧ i.wf n = true

/-- For NUM_SESSIONS n, word v decodes iff v[31:12] and v[7:4] are 0, v[3:0] is 1 to 10, a slot command has v[11:8] < n
and any other has v[11:8] = 0. The decoded command has OP v[3:0] and, for OP 1 to 5, slot v[11:8]. While BUSY = 1, a
word that does not decode completes with ERR_BAD_CMD whenever the next move is the engine's, be it listed or the
default with no move listed (which move comes next is the model's choice, log 6). -/
def Obligations.DecodeAcceptsExactlyWellFormedWords : Prop :=
  (∀ (n : Nat) (v : Word),
    (∃ i, decode n v = .ok i) ↔
      (v.extractLsb' 12 20 = 0 ∧ v.extractLsb' 4 4 = 0) ∧
      (1 ≤ (v.extractLsb' 0 4).toNat ∧ (v.extractLsb' 0 4).toNat ≤ 10) ∧
      ((v.extractLsb' 0 4).toNat ≤ 5 → (v.extractLsb' 8 4).toNat < n) ∧
      (6 ≤ (v.extractLsb' 0 4).toNat → v.extractLsb' 8 4 = 0)) ∧
  (∀ (n : Nat) (v : Word) (i : Instr), decode n v = .ok i →
    i.op = v.extractLsb' 0 4 ∧
    i.slot? = if (v.extractLsb' 0 4).toNat ≤ 5 then some (v.extractLsb' 8 4) else none) ∧
  (∀ s : State, s.busy = true → s.nextEvent = .engine →
    (∀ i, decode s.slots.length s.cmd ≠ .ok i) →
    step s = .next { s with busy := false, done := true, ckOk := false, result := .errBadCmd, inbox := s.inbox.tail })

/-- A word selected by a row of the table of R87 decodes, before the NUM_SESSIONS condition, to the row's command with
its SLOT field; a word that decodes is selected by a row; no word is selected by two different rows. -/
def Obligations.OpcodeTableSelectsCommands : Prop :=
  (∀ (v : Word) (r : OpcodeRow), r ∈ opcodeTable → r.Selects v →
    decodeRow v = .ok (r.make (v.extractLsb' 8 4))) ∧
  (∀ (v : Word) (i : Instr), decodeRow v = .ok i → ∃ r ∈ opcodeTable, r.Selects v) ∧
  opcodeTable.Pairwise (fun r q => ∀ v : Word, ¬ (r.Selects v ∧ q.Selects v))

/-- BC.ENC 3 is 0x0000_0304 and SESS.INITF 0 is 0x0000_0002 (the examples of R87), and 0x0000_0101, 0x0000_0006,
0x0000_0009 and 0x0000_000A are SESS.INITK 1, CK.VERIFY, OBF.DEC and MOD.DESC on a unit with 16 slots. -/
def Obligations.SampleWordsDecode : Prop :=
  decode 16 0x00000304 = .ok (.bcEnc 3) ∧ decode 16 0x00000002 = .ok (.sessInitf 0) ∧
  decode 16 0x00000101 = .ok (.sessInitk 1) ∧ decode 16 0x00000006 = .ok .ckVerify ∧
  decode 16 0x00000009 = .ok .obfDec ∧ decode 16 0x0000000A = .ok .modDesc

/-- While BUSY = 1 and when the next move is the engine's, be it listed or the default with no move listed (which move
comes next is the model's choice, log 6), a word in CMD with OP 0 or 11 to 15, or a nonzero reserved bit, or a
nonzero SLOT with OP 6 to 10, or a SLOT not below NUM_SESSIONS with OP 1 to 5, completes: BUSY = 0, DONE = 1, CK_OK
= 0, RESULT = ERR_BAD_CMD, and nothing else changes. -/
def Obligations.IllegalWordsChangeOnlyStatus : Prop :=
  ∀ s : State, s.busy = true → s.nextEvent = .engine →
    ((s.cmd.extractLsb' 0 4 = 0 ∨ 11 ≤ (s.cmd.extractLsb' 0 4).toNat) ∨
     (s.cmd.extractLsb' 4 4 ≠ 0 ∨ s.cmd.extractLsb' 12 20 ≠ 0) ∨
     (6 ≤ (s.cmd.extractLsb' 0 4).toNat ∧ (s.cmd.extractLsb' 0 4).toNat ≤ 10 ∧ s.cmd.extractLsb' 8 4 ≠ 0) ∨
     (1 ≤ (s.cmd.extractLsb' 0 4).toNat ∧ (s.cmd.extractLsb' 0 4).toNat ≤ 5 ∧
       s.slots.length ≤ (s.cmd.extractLsb' 8 4).toNat)) →
    step s = .next { s with busy := false, done := true, ckOk := false, result := .errBadCmd, inbox := s.inbox.tail }

/-- While BUSY = 1, if CMD decodes to command i, then the step is exec i: at this state when no move is listed, and at
the state without the listed engine move when that move comes next. With BUSY = 0 the engine's turn changes nothing.
That the engine moves when no move is listed, and that its turn with BUSY = 0 leaves the state, is the model's
choice (log 6, DESIGN CHOICE): R201 gives no order of host and engine. -/
def Obligations.StepRunsDecodedCommand : Prop :=
  ∀ (s : State) (i : Instr) (rest : List Event),
    (s.busy = true → decode s.slots.length s.cmd = .ok i → s.inbox = [] → step s = exec i s) ∧
    (s.busy = true → decode s.slots.length s.cmd = .ok i → s.inbox = .engine :: rest →
      step s = exec i { s with inbox := rest }) ∧
    (s.busy = false → s.inbox = .engine :: rest → step s = .next { s with inbox := rest })

/-- A 32-bit write of v to offset 0x008 with BUSY = 0 sets CMD = v, BUSY = 1, DONE = 0, CK_OK = 0, RESULT = 0 and
changes nothing else, HAZ included, whatever v is; with BUSY = 1 it changes nothing but HAZ, which becomes 1. -/
def Obligations.CommandWriteIssues : Prop :=
  ∀ (s : State) (v : Word),
    (s.busy = false → hostAccess (.write 32 0x008 v) s =
      { s with cmd := v, busy := true, done := false, ckOk := false, result := .ok }) ∧
    (s.busy = true → hostAccess (.write 32 0x008 v) s = { s with haz := true })

/-- For every command and every state, exec answers a next state, with BUSY = 0 and DONE = 1, and CK_OK = 1 only after
CK.VERIFY with RESULT = OK. No command faults and none is refused. -/
def Obligations.EveryCommandCompletes : Prop :=
  ∀ (i : Instr) (s : State), ∃ t, exec i s = .next t ∧ t.busy = false ∧ t.done = true ∧
    (t.ckOk = true → i = .ckVerify ∧ t.result = .ok)

/-- When exec gives a next state, only BUSY, DONE, CK_OK, RESULT, the slot file and the DATA RAM can differ: CTRL, HAZ,
CMD, OFFSET, SIZE, OBF_KEY, the parameters and the model's own fields keep their values, NUM_SESSIONS too, and
RAM_INIT is not drawn again. -/
def Obligations.CommandFrame : Prop :=
  ∀ (i : Instr) (s t : State), exec i s = .next t →
    t = { s with busy := false, done := true, ckOk := t.ckOk, result := t.result, slots := t.slots, ram := t.ram } ∧
    t.slots.length = s.slots.length ∧ t.ram.epoch = s.ram.epoch

/-- If exec answers a next state whose RESULT is not OK, then that state is the old one with BUSY = 0, DONE = 1, CK_OK =
0 and RESULT = the code: no DATA byte, no slot and no other register is written. -/
def Obligations.ErrorsChangeOnlyStatus : Prop :=
  ∀ (i : Instr) (s t : State), exec i s = .next t → t.result ≠ .ok →
    t = { s with busy := false, done := true, ckOk := false, result := t.result }

/-- From every state with BUSY = 1 whose host program jumps only to lines it has, some number of steps, at most the
number of listed moves plus one, reaches a state with BUSY = 0, with no fault outcome and no refusal on the way.
That a bus error on the way is recorded and stops nothing is the model's choice (log 7, DESIGN CHOICE). The bound by
the listed moves is the model's form of weak fairness (log 6, DESIGN CHOICE). -/
def Obligations.CommandInFlightCompletes : Prop :=
  ∀ s : State, s.busy = true → s.host.targetsOk →
    ∃ (k : Nat) (t : State), k ≤ s.inbox.length + 1 ∧ Host.Core.run Sys2Proof.core k s = Host.Outcome.next t ∧
      t.busy = false

/-- For every state the step answers a next state or refuses a host line that jumps to no line of the program; with a
host program that jumps only to lines it has, it answers a next state whose host program still does. That no step
answers a fault is the model's choice (log 7, DESIGN CHOICE): R67, R220 and 93_implementation_defined.md P5 make a
bus error a host fault, and the model records it in State.hostFault and goes on. R220 itself says only that the unit
has no fault state and refuses nothing. Which host lines are refused is the model's choice too (log 9, DESIGN
CHOICE). -/
def Obligations.StepNeverFaults : Prop :=
  (∀ s : State, (∃ t, step s = .next t) ∨ ∃ n, step s = .refused (.hostTarget n)) ∧
  (∀ s : State, s.host.targetsOk → ∃ t, step s = .next t ∧ t.host.targetsOk)

/-- State.reset satisfies State.Inv, for every value of the parameters and free values. -/
def Obligations.ResetSatisfiesInvariant : Prop :=
  State.reset.Inv

/-- From every state that satisfies State.Inv, a step that answers a next state gives one that satisfies it: the DATA
bytes stay in canonical form and inside DATA_BYTES, the parameters legal, keyed slots hold keys of 1 to
KEY_MAX_BYTES bytes, BUSY and DONE never hold together, RESULT and CK_OK are 0 while BUSY, and CK_OK = 1 only with
CMD = CK.VERIFY and RESULT = OK. -/
def Obligations.StepKeepsInvariant : Prop :=
  ∀ s t : State, s.Inv → step s = .next t → t.Inv

/-- From every state whose written DATA bytes are listed with strictly rising addresses, a step gives one where they
are. The list and its order are the model's own representation of the DATA RAM (log 4, DESIGN CHOICE), no rule of
the spec. -/
def Obligations.StepKeepsMemoryCanonical : Prop :=
  ∀ s t : State, s.ram.cells.wf → step s = .next t → t.ram.cells.wf

/-- DATA_BYTES, KEY_MAX_BYTES, FALLBACK_KEY and NUM_SESSIONS are the same before and after every step. -/
def Obligations.ParametersNeverChange : Prop :=
  ∀ s t : State, step s = .next t → t.cfg = s.cfg ∧ t.slots.length = s.slots.length

/-- SESS.INITK s gives ERR_RANGE if the window leaves the DATA RAM, else ERR_SESSION_ACTIVE if slot s is keyed, else
ERR_KEY_LEN if size is 0 or above KEY_MAX_BYTES, else OK with slot s keyed with the window's bytes in ascending
order. Nothing else changes in any case. On a slot below NUM_SESSIONS the slot then reads as that session and
SESS_VALID reads its bit as 1. -/
def Obligations.SessInitkResult : Prop :=
  ∀ (slot : BitVec 4) (s : State),
    (s.cfg.dataBytes < s.off + s.len →
      exec (.sessInitk slot) s = .next { s with busy := false, done := true, ckOk := false, result := .errRange }) ∧
    (s.off + s.len ≤ s.cfg.dataBytes → (s.slotAt slot).valid = true →
      exec (.sessInitk slot) s =
        .next { s with busy := false, done := true, ckOk := false, result := .errSessionActive }) ∧
    (s.off + s.len ≤ s.cfg.dataBytes → (s.slotAt slot).valid = false → (s.len = 0 ∨ s.cfg.keyMaxBytes < s.len) →
      exec (.sessInitk slot) s = .next { s with busy := false, done := true, ckOk := false, result := .errKeyLen }) ∧
    (s.off + s.len ≤ s.cfg.dataBytes → (s.slotAt slot).valid = false → 1 ≤ s.len → s.len ≤ s.cfg.keyMaxBytes →
      ∃ (key : List Byte) (t : State), exec (.sessInitk slot) s = .next t ∧
        t = { s with busy := false, done := true, ckOk := false, result := .ok,
                     slots := s.slots.set slot.toNat ⟨true, key⟩ } ∧
        key.length = s.len ∧ (∀ i, i < s.len → key[i]? = some (s.ram.byte (s.off + i))) ∧
        (slot.toNat < s.slots.length → t.slotAt slot = ⟨true, key⟩ ∧
          (hostAccess (.read 32 0x018) t).rdata.getLsbD slot.toNat = true))

/-- SESS.INITF s gives ERR_SESSION_ACTIVE on a keyed slot, else OK with slot s keyed with FALLBACK_KEY, and changes
nothing else. For other values of OFFSET, SIZE and OBF_KEY the outcome is the same but for those registers. -/
def Obligations.SessInitfResult : Prop :=
  ∀ (slot : BitVec 4) (s : State),
    ((s.slotAt slot).valid = true → ∀ off size key : Word,
      exec (.sessInitf slot) { s with offset := off, size := size, obfKey := key } =
        .next { s with offset := off, size := size, obfKey := key,
                       busy := false, done := true, ckOk := false, result := .errSessionActive }) ∧
    ((s.slotAt slot).valid = false → ∀ off size key : Word,
      exec (.sessInitf slot) { s with offset := off, size := size, obfKey := key } =
        .next { s with offset := off, size := size, obfKey := key,
                       busy := false, done := true, ckOk := false, result := .ok,
                       slots := s.slots.set slot.toNat ⟨true, s.cfg.fallbackKey⟩ })

/-- SESS.CLOSE s completes OK from every state; slot s then has valid = 0, no other slot and no register but STATUS
changes, and no DATA byte. On a free slot nothing but STATUS changes. A BC.ENC s that follows, with a window inside
the DATA RAM, gives ERR_NO_SESSION. (The key bytes of a free slot are unobservable; that they stay is the model's
choice, log 11, and no clause says it.) -/
def Obligations.SessCloseResult : Prop :=
  ∀ (slot : BitVec 4) (s : State), ∃ t : State, exec (.sessClose slot) s = .next t ∧
    t = { s with busy := false, done := true, ckOk := false, result := .ok, slots := t.slots } ∧
    t.slots.length = s.slots.length ∧ (∀ j, j ≠ slot.toNat → t.slots[j]? = s.slots[j]?) ∧
    (t.slotAt slot).valid = false ∧ ((s.slotAt slot).valid = false → t.slots = s.slots) ∧
    (t.off + t.len ≤ t.cfg.dataBytes → exec (.bcEnc slot) t =
      .next { t with busy := false, done := true, ckOk := false, result := .errNoSession })

/-- BC.ENC s gives ERR_RANGE if the window leaves the DATA RAM, else ERR_NO_SESSION if slot s is not keyed, else OK:
each of the floor(size/8) blocks of the window becomes the encryption of its old value under the schedule of slot
s's key, and every other byte, the remainder bytes included, and every register but STATUS and every slot keep their
values. -/
def Obligations.BcEncResult : Prop :=
  ∀ (slot : BitVec 4) (s : State),
    (s.cfg.dataBytes < s.off + s.len →
      exec (.bcEnc slot) s = .next { s with busy := false, done := true, ckOk := false, result := .errRange }) ∧
    (s.off + s.len ≤ s.cfg.dataBytes → (s.slotAt slot).valid = false →
      exec (.bcEnc slot) s = .next { s with busy := false, done := true, ckOk := false, result := .errNoSession }) ∧
    (s.off + s.len ≤ s.cfg.dataBytes → (s.slotAt slot).valid = true →
      ∃ r : Ram, exec (.bcEnc slot) s =
          .next { s with busy := false, done := true, ckOk := false, result := .ok, ram := r } ∧
        (∀ k, k < s.len / 8 → r.block (s.off + 8 * k) =
          (Config.cipher s.cfg.keyMaxBytes).enc ((Config.cipher s.cfg.keyMaxBytes).ksE (s.slotAt slot).key)
            (s.ram.block (s.off + 8 * k))) ∧
        (∀ a, a < s.off ∨ s.off + 8 * (s.len / 8) ≤ a → r.byte a = s.ram.byte a))

/-- BC.DEC s gives ERR_RANGE if the window leaves the DATA RAM, else ERR_NO_SESSION if slot s is not keyed, else OK:
each of the floor(size/8) blocks of the window becomes the decryption of its old value under the schedule of slot
s's key, and every other byte, the remainder bytes included, and every register but STATUS and every slot keep their
values. -/
def Obligations.BcDecResult : Prop :=
  ∀ (slot : BitVec 4) (s : State),
    (s.cfg.dataBytes < s.off + s.len →
      exec (.bcDec slot) s = .next { s with busy := false, done := true, ckOk := false, result := .errRange }) ∧
    (s.off + s.len ≤ s.cfg.dataBytes → (s.slotAt slot).valid = false →
      exec (.bcDec slot) s = .next { s with busy := false, done := true, ckOk := false, result := .errNoSession }) ∧
    (s.off + s.len ≤ s.cfg.dataBytes → (s.slotAt slot).valid = true →
      ∃ r : Ram, exec (.bcDec slot) s =
          .next { s with busy := false, done := true, ckOk := false, result := .ok, ram := r } ∧
        (∀ k, k < s.len / 8 → r.block (s.off + 8 * k) =
          (Config.cipher s.cfg.keyMaxBytes).dec ((Config.cipher s.cfg.keyMaxBytes).ksD (s.slotAt slot).key)
            (s.ram.block (s.off + 8 * k))) ∧
        (∀ a, a < s.off ∨ s.off + 8 * (s.len / 8) ≤ a → r.byte a = s.ram.byte a))

/-- Take a state with BC.ENC s in flight and two turns of the engine next, slot s keyed with a key of legal length and
the window inside the DATA RAM. One step completes BC.ENC with OK; the host writes BC.DEC s to CMD; the next step
completes it with OK, and every DATA byte has the value it had before, the remainder bytes having it in between too.
R111 marks its sentence [derived: from rules R107, R108, R109 and law CIPHER_INV of 00_scope.md rule R12]. -/
def Obligations.BlockRoundTrip : Prop :=
  ∀ (slot : BitVec 4) (s : State) (rest : List Event), s.busy = true → s.inbox = .engine :: .engine :: rest →
    s.cmd = encode (.bcEnc slot) →
    slot.toNat < s.slots.length → (s.slotAt slot).valid = true →
    1 ≤ (s.slotAt slot).key.length → (s.slotAt slot).key.length ≤ s.cfg.keyMaxBytes →
    s.off + s.len ≤ s.cfg.dataBytes →
    ∃ t u : State, step s = .next t ∧ step (hostAccess (.write 32 0x008 (encode (.bcDec slot))) t) = .next u ∧
      t.result = .ok ∧ u.result = .ok ∧ (∀ a, u.ram.byte a = s.ram.byte a) ∧
      ∀ a, s.off + 8 * (s.len / 8) ≤ a → t.ram.byte a = s.ram.byte a

/-- When exec answers a next state, every slot the command does not name is as before, and BC.*, CK.*, OBF.* and
MOD.DESC leave the whole slot file as it was. -/
def Obligations.CommandsTouchOnlyTheirSlot : Prop :=
  ∀ (i : Instr) (s t : State), exec i s = .next t →
    (∀ j, (∀ slot, i.slot? = some slot → slot.toNat ≠ j) → t.slots[j]? = s.slots[j]?) ∧
    ((∀ slot, i ≠ .sessInitk slot ∧ i ≠ .sessInitf slot ∧ i ≠ .sessClose slot) → t.slots = s.slots)

/-- If a slot is keyed before a step, and the step is not a reset, then after the step the slot holds the same key and
is keyed, unless the step is the engine's move that completes a SESS.CLOSE of that slot: BUSY was 1, CMD holds that
command, BUSY is 0, DONE is 1 and RESULT is OK after it, and the slot is not keyed. -/
def Obligations.KeyedSlotKeepsItsKey : Prop :=
  ∀ (s t : State) (j : Nat) (x : Slot), step s = .next t → s.slots[j]? = some x → x.valid = true →
    (∀ rest, s.inbox ≠ .reset :: rest) →
    t.slots[j]? = some x ∨
      (s.busy = true ∧ s.nextEvent = .engine ∧ t.busy = false ∧ t.done = true ∧ t.result = .ok ∧
        (∃ slot : BitVec 4, decode s.slots.length s.cmd = .ok (.sessClose slot) ∧ slot.toNat = j) ∧
        ∃ y, t.slots[j]? = some y ∧ y.valid = false)

/-- CK.VERIFY gives ERR_RANGE if the window leaves the DATA RAM, else ERR_VALIDATION if size is not a multiple of 4
above 4, else OK with CK_OK = 1 exactly when the XOR of words 0 to m-2 equals word m-1. Nothing else changes: no
register but STATUS, no slot, no DATA byte. -/
def Obligations.CkVerifyResult : Prop :=
  ∀ s : State,
    (s.cfg.dataBytes < s.off + s.len →
      exec .ckVerify s = .next { s with busy := false, done := true, ckOk := false, result := .errRange }) ∧
    (s.off + s.len ≤ s.cfg.dataBytes → (s.len % 4 ≠ 0 ∨ s.len ≤ 4) →
      exec .ckVerify s = .next { s with busy := false, done := true, ckOk := false, result := .errValidation }) ∧
    (s.off + s.len ≤ s.cfg.dataBytes → s.len % 4 = 0 → 4 < s.len →
      exec .ckVerify s = .next { s with
        busy := false, done := true, result := .ok,
        ckOk := decide (xorOfWords s.ram s.off (s.len / 4 - 1) = s.ram.le32 (s.off + 4 * (s.len / 4 - 1))) })

/-- CK.APPEND gives ERR_RANGE if the window leaves the DATA RAM, else ERR_VALIDATION if size is not a multiple of 4
above 4, else OK with the XOR of words 0 to m-2 stored little-endian in the window's last 4 bytes; every other byte,
every register but STATUS and every slot keep their values. -/
def Obligations.CkAppendResult : Prop :=
  ∀ s : State,
    (s.cfg.dataBytes < s.off + s.len →
      exec .ckAppend s = .next { s with busy := false, done := true, ckOk := false, result := .errRange }) ∧
    (s.off + s.len ≤ s.cfg.dataBytes → (s.len % 4 ≠ 0 ∨ s.len ≤ 4) →
      exec .ckAppend s = .next { s with busy := false, done := true, ckOk := false, result := .errValidation }) ∧
    (s.off + s.len ≤ s.cfg.dataBytes → s.len % 4 = 0 → 4 < s.len →
      ∃ r : Ram, exec .ckAppend s =
          .next { s with busy := false, done := true, ckOk := false, result := .ok, ram := r } ∧
        r.le32 (s.off + s.len - 4) = xorOfWords s.ram s.off (s.len / 4 - 1) ∧
        (∀ a, a < s.off + s.len - 4 ∨ s.off + s.len ≤ a → r.byte a = s.ram.byte a))

/-- Take a state with CK.APPEND in flight, two turns of the engine next, and a valid window inside the DATA RAM. One
step completes it; the host writes CK.VERIFY to CMD; the next step completes with RESULT = OK and CK_OK = 1 and
leaves every DATA byte as CK.APPEND left it. R136 marks its sentence [derived: from rules R134 and R135]. -/
def Obligations.AppendThenVerifySucceeds : Prop :=
  ∀ (s : State) (rest : List Event), s.busy = true → s.inbox = .engine :: .engine :: rest → s.cmd = encode .ckAppend →
    s.off + s.len ≤ s.cfg.dataBytes →
    s.len % 4 = 0 → 4 < s.len →
    ∃ t u : State, step s = .next t ∧ step (hostAccess (.write 32 0x008 (encode .ckVerify)) t) = .next u ∧
      t.result = .ok ∧ u.result = .ok ∧ u.ckOk = true ∧ ∀ a, u.ram.byte a = t.ram.byte a

/-- OBF.ENC gives ERR_RANGE if the window leaves the DATA RAM or size < 9, else OK: with n = floor((size-9)/4), word j
(1 to n) of the window becomes its old value XOR the accumulator after it (OBF_KEY plus old words 1 to j, modulo
2^32), the last 4 bytes become the accumulator after word n, little-endian, and every other byte, every register but
STATUS and every slot keep their values. -/
def Obligations.ObfEncResult : Prop :=
  ∀ s : State,
    (s.cfg.dataBytes < s.off + s.len ∨ s.len < 9 →
      exec .obfEnc s = .next { s with busy := false, done := true, ckOk := false, result := .errRange }) ∧
    (s.off + s.len ≤ s.cfg.dataBytes → 9 ≤ s.len →
      ∃ r : Ram, exec .obfEnc s =
          .next { s with busy := false, done := true, ckOk := false, result := .ok, ram := r } ∧
        (∀ j, 1 ≤ j → j ≤ (s.len - 9) / 4 →
          r.le32 (s.off + 4 * j) = s.ram.le32 (s.off + 4 * j) ^^^ encAcc s.ram s.off s.obfKey j) ∧
        r.le32 (s.off + s.len - 4) = encAcc s.ram s.off s.obfKey ((s.len - 9) / 4) ∧
        (∀ a, (a < s.off + 4 ∨ (s.off + 4 * ((s.len - 9) / 4 + 1) ≤ a ∧ a < s.off + s.len - 4) ∨ s.off + s.len ≤ a) →
          r.byte a = s.ram.byte a))

/-- OBF.DEC gives ERR_RANGE if the window leaves the DATA RAM or size < 9, else OK: with n = floor((size-9)/4), word j
(n down to 1) becomes its old value XOR the accumulator, which starts as the last 4 bytes and loses each recovered
word modulo 2^32; every other byte, the last 4 included, every register but STATUS and every slot keep their values. -/
def Obligations.ObfDecResult : Prop :=
  ∀ s : State,
    (s.cfg.dataBytes < s.off + s.len ∨ s.len < 9 →
      exec .obfDec s = .next { s with busy := false, done := true, ckOk := false, result := .errRange }) ∧
    (s.off + s.len ≤ s.cfg.dataBytes → 9 ≤ s.len →
      ∃ r : Ram, exec .obfDec s =
          .next { s with busy := false, done := true, ckOk := false, result := .ok, ram := r } ∧
        (∀ j, 1 ≤ j → j ≤ (s.len - 9) / 4 →
          r.le32 (s.off + 4 * j) = s.ram.le32 (s.off + 4 * j) ^^^
            decAcc s.ram s.off ((s.len - 9) / 4) (s.ram.le32 (s.off + s.len - 4)) ((s.len - 9) / 4 - j)) ∧
        (∀ a, (a < s.off + 4 ∨ s.off + 4 * ((s.len - 9) / 4 + 1) ≤ a) → r.byte a = s.ram.byte a))

/-- Take a state with OBF.ENC in flight, two turns of the engine next, size >= 9 and the window inside the DATA RAM,
with any OBF_KEY. One step completes it; the host writes OBF.DEC to CMD; the next step completes it; every DATA byte
but the window's last 4 has the value from before OBF.ENC, and those 4 hold the final encode accumulator (R158).
R157 and R158 mark their sentences [derived: from rules R151, R153 and R155] and [derived: from rules R151 and
R156]. -/
def Obligations.ObfuscatorRoundTrip : Prop :=
  ∀ (s : State) (rest : List Event), s.busy = true → s.inbox = .engine :: .engine :: rest → s.cmd = encode .obfEnc →
    s.off + s.len ≤ s.cfg.dataBytes →
    9 ≤ s.len →
    ∃ t u : State, step s = .next t ∧ step (hostAccess (.write 32 0x008 (encode .obfDec)) t) = .next u ∧
      t.result = .ok ∧ u.result = .ok ∧
      (∀ a, a < s.off + s.len - 4 ∨ s.off + s.len ≤ a → u.ram.byte a = s.ram.byte a) ∧
      u.ram.le32 (s.off + s.len - 4) = encAcc s.ram s.off s.obfKey ((s.len - 9) / 4)

/-- With another slot file of any kind, OBF.ENC and OBF.DEC answer the same next state but for the slot file, which they
leave as it is. -/
def Obligations.ObfuscatorIgnoresSessions : Prop :=
  ∀ (s : State) (slots : List Slot), ∀ i ∈ [Instr.obfEnc, Instr.obfDec],
    ∃ t, exec i s = .next t ∧ t.slots = s.slots ∧ exec i { s with slots := slots } = .next { t with slots := slots }

/-- MOD.DESC gives ERR_RANGE if the window leaves the DATA RAM, else ERR_VALIDATION if size is not 128, else OK: byte i
of the window becomes byte i of the four steps of R172 applied to the old window, and every byte outside the window,
every register but STATUS and every slot keep their values. -/
def Obligations.ModDescResult : Prop :=
  ∀ s : State,
    (s.cfg.dataBytes < s.off + s.len →
      exec .modDesc s = .next { s with busy := false, done := true, ckOk := false, result := .errRange }) ∧
    (s.off + s.len ≤ s.cfg.dataBytes → s.len ≠ 128 →
      exec .modDesc s = .next { s with busy := false, done := true, ckOk := false, result := .errValidation }) ∧
    (s.off + s.len ≤ s.cfg.dataBytes → s.len = 128 →
      ∃ r : Ram, exec .modDesc s =
          .next { s with busy := false, done := true, ckOk := false, result := .ok, ram := r } ∧
        (∀ i, i < 128 → r.byte (s.off + i) = descrambled (fun j => s.ram.byte (s.off + j)) i) ∧
        (∀ a, a < s.off ∨ s.off + 128 ≤ a → r.byte a = s.ram.byte a))

/-- For a 128-byte window inside the DATA RAM: two DATA RAMs that MOD.DESC takes to the same window bytes had the same
window bytes, and for every choice of 128 bytes there is a DATA RAM that MOD.DESC takes to them. -/
def Obligations.ModDescIsBijective : Prop :=
  ∀ s : State, s.off + s.len ≤ s.cfg.dataBytes → s.len = 128 →
    (∀ (r q : Ram) (t u : State), exec .modDesc { s with ram := r } = .next t → exec .modDesc { s with ram := q } = .next u →
      (∀ i, i < 128 → t.ram.byte (s.off + i) = u.ram.byte (s.off + i)) →
      ∀ i, i < 128 → r.byte (s.off + i) = q.byte (s.off + i)) ∧
    (∀ y : Nat → Byte, ∃ (r : Ram) (t : State), exec .modDesc { s with ram := r } = .next t ∧ t.result = .ok ∧
      ∀ i, i < 128 → t.ram.byte (s.off + i) = y i)

/-- For a 128-byte window inside the DATA RAM: if each window byte of a third RAM is the XOR of those of two others, so
it is after MOD.DESC on each; and a window of zero bytes stays zero. -/
def Obligations.ModDescIsLinear : Prop :=
  ∀ s : State, s.off + s.len ≤ s.cfg.dataBytes → s.len = 128 → ∀ r q p : Ram,
    ∃ t u w : State, exec .modDesc { s with ram := r } = .next t ∧ exec .modDesc { s with ram := q } = .next u ∧
      exec .modDesc { s with ram := p } = .next w ∧
      ((∀ i, i < 128 → p.byte (s.off + i) = r.byte (s.off + i) ^^^ q.byte (s.off + i)) →
        ∀ i, i < 128 → w.ram.byte (s.off + i) = t.ram.byte (s.off + i) ^^^ u.ram.byte (s.off + i)) ∧
      ((∀ i, i < 128 → r.byte (s.off + i) = 0) → ∀ i, i < 128 → t.ram.byte (s.off + i) = 0)

/-- The value the model reads as the modulus N is the sum over i < 128 of buf[i] * 256^(127-i), and after a MOD.DESC
that completes on an all-zero window it is 0. -/
def Obligations.ModulusIsBigEndian : Prop :=
  (∀ (off : Nat) (r : Ram),
    modulus off r = ∑ i ∈ Finset.range 128, (r.byte (off + i)).toNat * 256 ^ (127 - i)) ∧
  (∀ s : State, s.off + s.len ≤ s.cfg.dataBytes → s.len = 128 → (∀ i, i < 128 → s.ram.byte (s.off + i) = 0) →
    ∃ t, exec .modDesc s = .next t ∧ t.result = .ok ∧ modulus s.off t.ram = 0)

/-- When exec answers a next state, every DATA byte below OFFSET or at OFFSET + SIZE and above reads as before, and
SESS.INITK, SESS.INITF, SESS.CLOSE and CK.VERIFY change no DATA byte at all. -/
def Obligations.CommandsWriteOnlyTheirWindow : Prop :=
  ∀ (i : Instr) (s t : State), exec i s = .next t →
    (∀ a, a < s.off ∨ s.off + s.len ≤ a → t.ram.byte a = s.ram.byte a) ∧
    (i = .ckVerify ∨ (∃ slot, i = .sessInitk slot ∨ i = .sessInitf slot ∨ i = .sessClose slot) →
      ∀ a, t.ram.byte a = s.ram.byte a)

/-- Two states that differ only in DATA bytes outside the window give, for every command, next states with the same
STATUS, the same slot file and the same bytes inside the window. -/
def Obligations.CommandsReadOnlyTheirWindow : Prop :=
  ∀ (i : Instr) (s : State) (r : Ram),
    (∀ a, s.off ≤ a → a < s.off + s.len → r.byte a = s.ram.byte a) →
    ∃ t u : State, exec i s = .next t ∧ exec i { s with ram := r } = .next u ∧ u = { t with ram := u.ram } ∧
      ∀ a, s.off ≤ a → a < s.off + s.len → u.ram.byte a = t.ram.byte a

/-- For every command that uses the window, if OFFSET + SIZE, not wrapped, is above DATA_BYTES then exec completes with
ERR_RANGE and changes nothing but STATUS, whatever the slot state and size; if not, then only OBF.ENC and OBF.DEC
with size < 9 end with ERR_RANGE, so that size 0 with OFFSET <= DATA_BYTES passes the check. SESS.INITF and
SESS.CLOSE never end with ERR_RANGE. -/
def Obligations.WindowCheckComesFirst : Prop :=
  ∀ (i : Instr) (s : State),
    (i.usesWindow = true → s.cfg.dataBytes < s.offset.toNat + s.size.toNat →
      exec i s = .next { s with busy := false, done := true, ckOk := false, result := .errRange }) ∧
    (s.offset.toNat + s.size.toNat ≤ s.cfg.dataBytes → ∀ t, exec i s = .next t → t.result = .errRange →
      (i = .obfEnc ∨ i = .obfDec) ∧ s.size.toNat < 9) ∧
    (i.usesWindow = false → ∃ t, exec i s = .next t ∧ t.result ≠ .errRange) ∧
    (i.usesWindow = false ↔ ∃ slot, i = .sessInitf slot ∨ i = .sessClose slot)

/-- With DATA_BYTES a multiple of 4, an access is accepted iff it is a 32-bit access to an aligned offset in 0x000 to
0x018, an 8-bit access inside the DATA window, or a 32-bit access to an aligned offset inside the DATA window. Any
other access changes nothing of the unit, records a host fault and leaves an earlier one in place, and no step of
any kind, a reset included, clears a recorded host fault (recording it in the state is the model's choice, log 7). -/
def Obligations.AcceptedHostAccesses : Prop :=
  (∀ dataBytes bits off : Nat, dataBytes % 4 = 0 →
    ((∃ t, route dataBytes bits off = .ok t) ↔
      (bits = 32 ∧ off % 4 = 0 ∧ off ≤ 0x018) ∨
      (bits = 8 ∧ 0x1000 ≤ off ∧ off < 0x1000 + dataBytes) ∨
      (bits = 32 ∧ off % 4 = 0 ∧ 0x1000 ≤ off ∧ off < 0x1000 + dataBytes))) ∧
  (∀ (a : Access) (s : State) (f : Fault), (a.routed s.cfg.dataBytes).2 = .error f →
    ∃ (g : Fault) (d : Word) (n : Nat), hostAccess a s = { s with hostFault := some g, rdata := d, draws := n } ∧
      (∀ h, s.hostFault = some h → g = h)) ∧
  (∀ (s t : State) (g : Fault), step s = .next t → s.hostFault = some g → t.hostFault = some g)

/-- Writes and reads, each a (width, offset): 0x01C, 0x0FFF and the first offset past the DATA window at 32 and at 8
bits, a byte and a 16-bit access to a register, a misaligned 32-bit access to a register and to DATA, and a 16-bit
access to DATA. Each leaves the unit's state and HAZ as they are, also while BUSY = 1, and leaves a recorded host
fault (log 7); a read returns some value, which no clause names (log 5). -/
def Obligations.BusErrorChangesNothing : Prop :=
  ∀ (s : State) (v : Word), 4 ≤ s.cfg.dataBytes →
    ∀ p ∈ [(32, 0x01C), (8, 0x01C), (32, 0xFFF), (8, 0xFFF), (32, 0x1000 + s.cfg.dataBytes), (8, 0x1000 + s.cfg.dataBytes),
           (8, 0x004), (16, 0x004), (32, 0x006), (16, 0x1000), (32, 0x1001)],
      (∃ g, hostAccess (.write p.1 p.2 v) s = { s with hostFault := some g }) ∧
      (∃ (g : Fault) (d : Word) (n : Nat),
        hostAccess (.read p.1 p.2) s = { s with hostFault := some g, rdata := d, draws := n })

/-- While BUSY = 1: a write to CMD, OFFSET, SIZE, OBF_KEY or DATA at either width changes nothing but HAZ, which becomes
1; a read of DATA sets HAZ and changes nothing else of the unit (no clause says which value it returns); reads of
registers return their values with no side effect; writes to CTRL and STATUS act as always; a write to SESS_VALID is
ignored. -/
def Obligations.BusyHazard : Prop :=
  ∀ (s : State) (v : Word), s.busy = true →
    (∀ off ∈ [0x008, 0x00C, 0x010, 0x014], hostAccess (.write 32 off v) s = { s with haz := true }) ∧
    (∀ a, a < s.cfg.dataBytes → hostAccess (.write 8 (0x1000 + a) v) s = { s with haz := true }) ∧
    (∀ a, a % 4 = 0 → a + 4 ≤ s.cfg.dataBytes → hostAccess (.write 32 (0x1000 + a) v) s = { s with haz := true }) ∧
    (∀ a, a < s.cfg.dataBytes → ∃ (d : Byte) (n : Nat), hostAccess (.read 8 (0x1000 + a)) s =
      { s with haz := true, draws := n, rdata := d.zeroExtend 32 }) ∧
    (∀ a, a % 4 = 0 → a + 4 ≤ s.cfg.dataBytes → ∃ (d : Word) (n : Nat), hostAccess (.read 32 (0x1000 + a)) s =
      { s with haz := true, draws := n, rdata := d }) ∧
    hostAccess (.read 32 0x000) s = { s with rdata := s.ctrlWord } ∧
    hostAccess (.read 32 0x004) s = { s with rdata := s.statusWord } ∧
    hostAccess (.read 32 0x018) s = { s with rdata := s.sessValidWord } ∧
    hostAccess (.read 32 0x008) s = { s with rdata := s.cmd } ∧
    hostAccess (.read 32 0x00C) s = { s with rdata := s.offset } ∧
    hostAccess (.read 32 0x010) s = { s with rdata := s.size } ∧
    hostAccess (.read 32 0x014) s = { s with rdata := s.obfKey } ∧
    hostAccess (.write 32 0x000 v) s = { s with ie := v.getLsbD 0 } ∧
    hostAccess (.write 32 0x004 v) s =
      { s with done := s.done && !v.getLsbD 1, haz := s.haz && !v.getLsbD 3 } ∧
    hostAccess (.write 32 0x018 v) s = s

/-- With BUSY = 0, a 32-bit write of v to OFFSET, SIZE or OBF_KEY changes that register to v and nothing else, and a
read of it then gives v; a read of CMD gives the word v right after the issue of v, and in every state, BUSY or not,
the register CMD (that CMD holds the last word issued is CmdHoldsLastIssuedWord). -/
def Obligations.RegistersReadAsWritten : Prop :=
  (∀ (s : State) (v : Word), s.busy = false →
    hostAccess (.write 32 0x00C v) s = { s with offset := v } ∧
    hostAccess (.write 32 0x010 v) s = { s with size := v } ∧
    hostAccess (.write 32 0x014 v) s = { s with obfKey := v } ∧
    hostAccess (.write 32 0x018 v) s = s ∧
    (hostAccess (.read 32 0x00C) (hostAccess (.write 32 0x00C v) s)).rdata = v ∧
    (hostAccess (.read 32 0x010) (hostAccess (.write 32 0x010 v) s)).rdata = v ∧
    (hostAccess (.read 32 0x014) (hostAccess (.write 32 0x014 v) s)).rdata = v ∧
    (hostAccess (.read 32 0x008) (hostAccess (.write 32 0x008 v) s)).rdata = v) ∧
  (∀ s : State, (hostAccess (.read 32 0x008) s).rdata = s.cmd)

/-- A 32-bit write of v to CTRL, whatever BUSY, changes IE to v[0] at once and nothing else, and a read of CTRL then
gives v[0] in bit 0 and 0 in every other bit. IE is 0 after reset. -/
def Obligations.ControlWriteSetsOnlyIe : Prop :=
  (∀ (s : State) (v : Word),
    hostAccess (.write 32 0x000 v) s = { s with ie := v.getLsbD 0 } ∧
    (hostAccess (.read 32 0x000) (hostAccess (.write 32 0x000 v) s)).rdata = v &&& 1) ∧
  State.reset.ie = false

/-- A read of STATUS gives BUSY, DONE, CK_OK and HAZ in bits 0 to 3, the result code in bits 7:4 and 0 above; a write of
v clears DONE if v[1] = 1 and HAZ if v[3] = 1 and changes nothing else. -/
def Obligations.StatusWordAndWrite : Prop :=
  ∀ (s : State) (v : Word),
    ((hostAccess (.read 32 0x004) s).rdata.getLsbD 0 = s.busy ∧
     (hostAccess (.read 32 0x004) s).rdata.getLsbD 1 = s.done ∧
     (hostAccess (.read 32 0x004) s).rdata.getLsbD 2 = s.ckOk ∧
     (hostAccess (.read 32 0x004) s).rdata.getLsbD 3 = s.haz ∧
     (hostAccess (.read 32 0x004) s).rdata.extractLsb' 4 4 = s.result.code ∧
     (hostAccess (.read 32 0x004) s).rdata.extractLsb' 8 24 = 0) ∧
    hostAccess (.write 32 0x004 v) s = { s with done := s.done && !v.getLsbD 1, haz := s.haz && !v.getLsbD 3 } ∧
    s.result.code = (match s.result with
      | .ok => 0
      | .errRange => 1
      | .errValidation => 2
      | .errBadCmd => 3
      | .errNoSession => 4
      | .errSessionActive => 5
      | .errKeyLen => 6)

/-- A read of SESS_VALID gives a word whose bit j, for j < 32, is the valid bit of slot j if j < NUM_SESSIONS and 0
otherwise; a write to it changes nothing and is no bus error; after reset it reads 0. -/
def Obligations.SessValidShowsKeyedSlots : Prop :=
  (∀ (s : State) (j : Nat), j < 32 → (hostAccess (.read 32 0x018) s).rdata.getLsbD j =
    (if h : j < s.slots.length then s.slots[j].valid else false)) ∧
  (∀ (s : State) (v : Word), hostAccess (.write 32 0x018 v) s = s) ∧
  (hostAccess (.read 32 0x018) State.reset).rdata = 0

/-- With BUSY = 0: a 32-bit write of v to DATA[a .. a+3], a aligned, makes le32(a) = v, reads back as v, reads back byte
by byte with bits 7:0 at a, and changes no other DATA byte; an 8-bit read at a gives bits 8*(a mod 4)+7 to 8*(a mod
4) of the 32-bit read at a - (a mod 4), when DATA_BYTES is a multiple of 4; an 8-bit write changes exactly its byte. -/
def Obligations.DataWindowIsLittleEndian : Prop :=
  ∀ s : State, s.busy = false →
    (∀ (a : Nat) (v : Word), a % 4 = 0 → a + 4 ≤ s.cfg.dataBytes →
      ∃ r : Ram, hostAccess (.write 32 (0x1000 + a) v) s = { s with ram := r } ∧ r.le32 a = v ∧
        (hostAccess (.read 32 (0x1000 + a)) { s with ram := r }).rdata = v ∧
        (∀ k, k < 4 → r.byte (a + k) = v.extractLsb' (8 * k) 8) ∧
        (∀ b, b < a ∨ a + 4 ≤ b → r.byte b = s.ram.byte b)) ∧
    (∀ a, s.cfg.dataBytes % 4 = 0 → a < s.cfg.dataBytes →
      (hostAccess (.read 8 (0x1000 + a)) s).rdata =
        ((hostAccess (.read 32 (0x1000 + (a - a % 4))) s).rdata.extractLsb' (8 * (a % 4)) 8).zeroExtend 32) ∧
    (∀ (a : Nat) (v : Word), a < s.cfg.dataBytes →
      ∃ r : Ram, hostAccess (.write 8 (0x1000 + a) v) s = { s with ram := r } ∧ r.byte a = v.extractLsb' 0 8 ∧
        (∀ b, b ≠ a → r.byte b = s.ram.byte b))

/-- While BUSY = 1, no bus access of any width at any offset changes BUSY, CMD, OFFSET, SIZE, OBF_KEY, the slot file,
the DATA RAM or a parameter. -/
def Obligations.OperandsFrozenWhileBusy : Prop :=
  ∀ (a : Access) (s : State), s.busy = true →
    (hostAccess a s).busy = true ∧ (hostAccess a s).cmd = s.cmd ∧ (hostAccess a s).offset = s.offset ∧
    (hostAccess a s).size = s.size ∧ (hostAccess a s).obfKey = s.obfKey ∧ (hostAccess a s).slots = s.slots ∧
    (hostAccess a s).ram = s.ram ∧ (hostAccess a s).cfg = s.cfg

/-- If a bus access leaves HAZ = 1 where it was 0, then BUSY was 1 and the access was an accepted write to CMD, OFFSET,
SIZE, OBF_KEY or DATA or an accepted read of DATA; and every such access while BUSY = 1 leaves HAZ = 1. No command
sets or clears HAZ. A step sets HAZ only by making such an access while BUSY = 1, and clears it only by a 32-bit
write to STATUS with bit 3 = 1 or by a reset (which access comes next is the model's order, log 6 and log 9). -/
def Obligations.HazardNeedsBusyAndForbiddenAccess : Prop :=
  (∀ (a : Access) (s : State), s.haz = false →
    ((hostAccess a s).haz = true ↔ s.busy = true ∧ a.hazardous s.cfg.dataBytes = true)) ∧
  (∀ (i : Instr) (s t : State), exec i s = .next t → t.haz = s.haz) ∧
  (∀ s t : State, step s = .next t →
    (s.haz = false → t.haz = true → s.busy = true ∧ ∃ a, s.nextAccess = some a ∧ a.hazardous s.cfg.dataBytes = true) ∧
    (s.haz = true → t.haz = false →
      s.nextEvent = .reset ∨ ∃ v : Word, s.nextAccess = some (.write 32 0x004 v) ∧ v.getLsbD 3 = true))

/-- For every accepted read with BUSY = 0, nothing of the unit changes, and a second read of the same offset gives the
same data. A register read is so also while BUSY = 1. -/
def Obligations.ReadsHaveNoSideEffect : Prop :=
  ∀ (bits off : Nat) (s : State) (t : Target), route s.cfg.dataBytes bits off = .ok t →
    (s.busy = false ∨ ∃ r, t = .reg r) →
    ∃ d : Word, hostAccess (.read bits off) s = { s with rdata := d } ∧
      hostAccess (.read bits off) (hostAccess (.read bits off) s) = { s with rdata := d }

/-- After every command irq equals IE, whatever the result code. A write of 1 to STATUS bit 1, an issue and a write of
CTRL.IE = 0 each make irq 0; the last keeps DONE. HAZ has no influence. In every state irq = DONE and IE. While BUSY
= 1 the engine's move, listed or default, completes whatever word CMD holds, an ill-formed one too, and leaves DONE
= 1 and irq = IE. A step clears DONE only by a write of 1 to STATUS bit 1, an issue or a reset (which move comes
next is the model's order, log 6 and log 9). -/
def Obligations.InterruptFollowsDoneAndIe : Prop :=
  (∀ (i : Instr) (s t : State), exec i s = .next t → t.irq = s.ie) ∧
  (∀ (s : State) (v : Word), v.getLsbD 1 = true → (hostAccess (.write 32 0x004 v) s).irq = false) ∧
  (∀ (s : State) (v : Word), s.busy = false → (hostAccess (.write 32 0x008 v) s).irq = false) ∧
  (∀ (s : State) (v : Word), v.getLsbD 0 = false →
    (hostAccess (.write 32 0x000 v) s).irq = false ∧ (hostAccess (.write 32 0x000 v) s).done = s.done) ∧
  (∀ (s : State) (h : Bool), { s with haz := h }.irq = s.irq) ∧
  (∀ s : State, s.irq = (s.done && s.ie)) ∧
  (∀ s : State, s.busy = true → s.nextEvent = .engine → ∃ t, step s = .next t ∧ t.done = true ∧ t.irq = s.ie) ∧
  (∀ s t : State, step s = .next t → s.done = true → t.done = false →
    s.nextEvent = .reset ∨ (∃ v : Word, s.nextAccess = some (.write 32 0x004 v) ∧ v.getLsbD 1 = true) ∨
    (s.busy = false ∧ ∃ v : Word, s.nextAccess = some (.write 32 0x008 v)))

/-- When reset is the next move, whatever the unit is doing, one step gives IE, BUSY, DONE, CK_OK and HAZ 0, RESULT OK,
CMD, OFFSET, SIZE and OBF_KEY 0, every slot free, irq 0, and every DATA byte the value that this reset drew (in the
model's form, log 4). (That the parameters, the host agent and the recorded bus error stay is the model's choice,
log 13, and no clause says it but for NUM_SESSIONS.) -/
def Obligations.ResetInputClearsTheUnit : Prop :=
  ∀ (s : State) (rest : List Event), s.inbox = .reset :: rest → ∃ t, step s = .next t ∧
    t.ie = false ∧ t.busy = false ∧ t.done = false ∧ t.ckOk = false ∧ t.haz = false ∧ t.result = .ok ∧
    t.cmd = 0 ∧ t.offset = 0 ∧ t.size = 0 ∧ t.obfKey = 0 ∧ t.irq = false ∧
    t.slots.length = s.slots.length ∧ (∀ x ∈ t.slots, x.valid = false) ∧
    (∀ a, t.ram.byte a = Config.ramInit (s.ram.epoch + 1) a)

/-- From State.reset each of the seven registers reads 0x0000_0000, irq is 0, every DATA byte is the first draw of
RAM_INIT (in the model's form, log 4), and a step changes nothing (with no host program and no listed move, log 6,
log 8: the model's choice). -/
def Obligations.ResetStateReadsZero : Prop :=
  (∀ off ∈ [0x000, 0x004, 0x008, 0x00C, 0x010, 0x014, 0x018], (hostAccess (.read 32 off) State.reset).rdata = 0) ∧
  State.reset.irq = false ∧ (∀ a, State.reset.ram.byte a = Config.ramInit 0 a) ∧
  step State.reset = .next State.reset

/-- At the host agent's turn, for a line in hand and, with none in hand, for the next program line or the first line of
a pseudo-command: ISSUE performs the 32-bit write of the command's word to 0x008; POLL reads STATUS into t, comes
again exactly while BUSY reads 1, and changes no other variable and nothing else of the agent. One line a turn, one
STATUS read a turn and variable 0 standing for t are the model's choice (log 9, DESIGN CHOICE). -/
def Obligations.HostIssueAndPollLines : Prop :=
  ∀ (s : State) (rest : List Event) (l : HostLine) (h : HostAgent), s.inbox = .host :: rest → s.host.halted = false →
    ((∃ more, s.host.todo = l :: more ∧ h = { s.host with todo := more }) ∨
     (s.host.todo = [] ∧ ∃ p, 1 ≤ s.host.line ∧ s.host.program[s.host.line - 1]? = some p ∧ l = p.expand.1 ∧
       h = { s.host with line := s.host.line + 1, todo := p.expand.2 })) →
    (∀ i : Instr, l = .issue i →
      step s = .next (hostAccess (.write 32 0x008 (encode i)) { s with inbox := rest, host := h })) ∧
    (l = .poll → ∃ t, step s = .next t ∧
      t.host.var varT = (hostAccess (.read 32 0x004) s).rdata ∧
      (∀ x, x ≠ varT → t.host.var x = s.host.var x) ∧
      t.host = { h with vars := t.host.vars, todo := if s.busy then .poll :: h.todo else h.todo } ∧
      t = { s with inbox := rest, rdata := t.rdata, host := t.host })

/-- When the host agent's next line is l and the agent past it is h: W32 and W8 write, R32 reads into its variable and
leaves the others, a conditional jump is taken exactly on its condition, goto jumps to a line of the program, halt
halts, and nothing else changes; each pseudo-command is its lines of R90. A halted host and one with no next line do
nothing. One line a turn, and what a host does past its last line, are the model's choice (log 9, DESIGN CHOICE). -/
def Obligations.HostLinesDoWhatTheySay : Prop :=
  (∀ (s : State) (rest : List Event) (l : HostLine) (h : HostAgent), s.inbox = .host :: rest →
    s.host.fetch = some (l, h) →
    (∀ off v, l = .w32 off v → step s = .next (hostAccess (.write 32 off v) { s with inbox := rest, host := h })) ∧
    (∀ off (b : Byte), l = .w8 off b →
      step s = .next (hostAccess (.write 8 off (b.zeroExtend 32)) { s with inbox := rest, host := h })) ∧
    (∀ x off, l = .r32 x off → ∃ t, step s = .next t ∧ t.host.var x = (hostAccess (.read 32 off) s).rdata ∧
      (∀ y, y ≠ x → t.host.var y = s.host.var y) ∧ t.host = { h with vars := t.host.vars } ∧
      t = { hostAccess (.read 32 off) s with inbox := rest, host := t.host }) ∧
    (∀ n x (m : Word), 1 ≤ n → n ≤ s.host.program.length →
      (l = .goto n ∨ (l = .ifSet x m n ∧ s.host.var x &&& m ≠ 0) ∨ (l = .ifClear x m n ∧ s.host.var x &&& m = 0)) →
      step s = .next { s with inbox := rest, host := { h with line := n, todo := [] } }) ∧
    (∀ n x (m : Word),
      ((l = .ifSet x m n ∧ s.host.var x &&& m = 0) ∨ (l = .ifClear x m n ∧ s.host.var x &&& m ≠ 0)) →
      step s = .next { s with inbox := rest, host := h }) ∧
    (l = .halt → step s = .next { s with inbox := rest, host := { h with halted := true } })) ∧
  (∀ (s : State) (rest : List Event), s.inbox = .host :: rest →
    (s.host.halted = true ∨ (s.host.todo = [] ∧ ¬ (1 ≤ s.host.line ∧ s.host.line ≤ s.host.program.length))) →
    step s = .next { s with inbox := rest }) ∧
  (∀ (off size len key : Word) (slot : BitVec 4) (i : Instr),
    (ProgramLine.setwin off size).expand = (.w32 0x00C off, [.w32 0x010 size]) ∧
    (ProgramLine.bcEncAll slot len).expand = (.w32 0x00C 0, [.w32 0x010 len, .issue (.bcEnc slot)]) ∧
    (ProgramLine.bcDecAll slot len).expand = (.w32 0x00C 0, [.w32 0x010 len, .issue (.bcDec slot)]) ∧
    (ProgramLine.obfEncK key).expand = (.w32 0x014 key, [.issue .obfEnc]) ∧
    (ProgramLine.run i).expand = (.issue i, [.poll]))

/-- A step that is a reset leaves CMD = 0; a step that makes a 32-bit write of v to 0x008 with BUSY = 0 leaves CMD = v
and BUSY = 1; every other step leaves CMD as it was, a completion with any result and a write dropped by BUSY
included. Which access comes next is the model's order (log 6 and log 9). -/
def Obligations.CmdHoldsLastIssuedWord : Prop :=
  ∀ s t : State, step s = .next t →
    (s.nextEvent = .reset → t.cmd = 0) ∧
    (∀ v : Word, s.nextAccess = some (.write 32 0x008 v) → s.busy = false → t.cmd = v ∧ t.busy = true) ∧
    (s.nextEvent ≠ .reset → (∀ v : Word, s.nextAccess = some (.write 32 0x008 v) → s.busy = true) → t.cmd = s.cmd)

/-- For every state in which slot s exists and is free, whatever the window: SESS.INITF s answers the next state with
RESULT = OK, BUSY = 0, DONE = 1, CK_OK = 0 and slot s keyed with FALLBACK_KEY, and nothing else changed. A read of
SESS_VALID then gives bit s = 1 and every other bit as a read before gave it. A second SESS.INITF s completes with
ERR_SESSION_ACTIVE and changes nothing but STATUS. -/
def Obligations.SessInitfKeysSlot : Prop :=
  ∀ (slot : BitVec 4) (s : State), slot.toNat < s.slots.length → (s.slotAt slot).valid = false →
    ∃ t : State, exec (.sessInitf slot) s = .next t ∧
      t = { s with busy := false, done := true, ckOk := false, result := .ok,
                   slots := s.slots.set slot.toNat ⟨true, s.cfg.fallbackKey⟩ } ∧
      t.slotAt slot = ⟨true, s.cfg.fallbackKey⟩ ∧
      (∀ j, j < 32 → (hostAccess (.read 32 0x018) t).rdata.getLsbD j =
        (if j = slot.toNat then true else (hostAccess (.read 32 0x018) s).rdata.getLsbD j)) ∧
      exec (.sessInitf slot) t = .next { t with result := .errSessionActive }

end Statements
end

