-- ==== Sys2Proof/Laws/Memory.lean ====
section
/-! SUPPORT. The DATA RAM: what the memory operations do to the read of one byte, to words and blocks, and that they keep the
canonical form; the loop `forRange`. -/

namespace Sys2Proof.Machine

/-! ## The written bytes -/

@[simp] theorem Memory.lookup_nil (a : Nat) : Memory.lookup [] a = none := rfl

/-- A written byte reads back; every other address reads as before. -/
theorem Memory.lookup_store (m : Memory) (a : Nat) (x : Byte) (b : Nat) :
    Memory.lookup (Memory.store m a x) b = if b = a then some x else Memory.lookup m b := by
  induction m with
  | nil =>
    by_cases h1 : b = a
    · simp [Memory.store, Memory.lookup, h1]
    · simp [Memory.store, Memory.lookup, h1, Ne.symm h1]
  | cons p m ih =>
    obtain ⟨k, v⟩ := p
    simp only [Memory.store]
    split
    · simp only [Memory.lookup]
      by_cases h1 : b = a
      · simp [h1]
      · simp [h1, Ne.symm h1]
    · split
      · subst_vars
        simp only [Memory.lookup]
        by_cases h1 : b = k
        · simp [h1]
        · simp [h1, Ne.symm h1]
      · rename_i h2
        simp only [Memory.lookup, ih]
        by_cases h1 : b = a
        · subst h1
          simp [Ne.symm h2]
        · simp [h1]

/-- The addresses listed after a store: the old ones and the stored one. -/
theorem Memory.mem_keys_store (m : Memory) (a : Nat) (x : Byte) (b : Nat) :
    b ∈ (Memory.store m a x).map Prod.fst ↔ b = a ∨ b ∈ m.map Prod.fst := by
  induction m with
  | nil => simp [Memory.store]
  | cons p m ih =>
    obtain ⟨k, v⟩ := p
    simp only [Memory.store]
    split
    · simp
    · split
      · subst_vars
        simp
      · simp only [List.map_cons, List.mem_cons, ih]
        tauto

/-- A store keeps the canonical form. -/
theorem Memory.wf_store {m : Memory} (h : m.wf) (a : Nat) (x : Byte) : (Memory.store m a x).wf := by
  induction m with
  | nil => simp [Memory.store, Memory.wf]
  | cons p m ih =>
    obtain ⟨k, v⟩ := p
    simp only [Memory.wf, List.map_cons, List.pairwise_cons] at h
    obtain ⟨hk, hm⟩ := h
    simp only [Memory.store]
    split
    · rename_i hak
      simp only [Memory.wf, List.map_cons, List.pairwise_cons, List.mem_cons]
      refine ⟨?_, hk, hm⟩
      rintro b (rfl | hb)
      · exact hak
      · exact lt_trans hak (hk b hb)
    · split
      · subst_vars
        simp only [Memory.wf, List.map_cons, List.pairwise_cons]
        exact ⟨hk, hm⟩
      · rename_i h1 h2
        simp only [Memory.wf, List.map_cons, List.pairwise_cons]
        refine ⟨fun b hb => ?_, ih hm⟩
        rcases (Memory.mem_keys_store m a x b).1 hb with rfl | hb
        · omega
        · exact hk b hb

/-! ## One byte of the RAM -/

@[simp] theorem Ram.put_epoch (r : Ram) (a : Nat) (x : Byte) : (r.put a x).epoch = r.epoch := rfl

/-- The read of one byte after the write of one byte. -/
@[simp] theorem Ram.byte_put (r : Ram) (a : Nat) (x : Byte) (b : Nat) :
    (r.put a x).byte b = if b = a then x else r.byte b := by
  simp only [Ram.byte, Ram.put, Memory.lookup_store]
  split <;> simp

theorem Ram.put_wf {r : Ram} (h : r.cells.wf) (a : Nat) (x : Byte) : (r.put a x).cells.wf :=
  Memory.wf_store h a x

/-- Every listed address of a RAM is below a bound. -/
abbrev Ram.below (n : Nat) (r : Ram) : Prop := ∀ a ∈ r.cells.map Prod.fst, a < n

theorem Ram.put_below {n : Nat} {r : Ram} (h : r.below n) {a : Nat} (ha : a < n) (x : Byte) : (r.put a x).below n := by
  intro b hb
  rcases (Memory.mem_keys_store r.cells a x b).1 hb with rfl | hb
  · exact ha
  · exact h b hb

/-! ## Words -/

theorem byteLane_wordOfBytes_0 (b0 b1 b2 b3 : Byte) : byteLane (wordOfBytes b0 b1 b2 b3) 0 = b0 := by
  ext i hi
  interval_cases i <;> simp [byteLane, wordOfBytes]

theorem byteLane_wordOfBytes_1 (b0 b1 b2 b3 : Byte) : byteLane (wordOfBytes b0 b1 b2 b3) 1 = b1 := by
  ext i hi
  interval_cases i <;> simp [byteLane, wordOfBytes]

theorem byteLane_wordOfBytes_2 (b0 b1 b2 b3 : Byte) : byteLane (wordOfBytes b0 b1 b2 b3) 2 = b2 := by
  ext i hi
  interval_cases i <;> simp [byteLane, wordOfBytes]

theorem byteLane_wordOfBytes_3 (b0 b1 b2 b3 : Byte) : byteLane (wordOfBytes b0 b1 b2 b3) 3 = b3 := by
  ext i hi
  interval_cases i <;> simp [byteLane, wordOfBytes]

/-- A word is the word of its four lanes. -/
@[simp] theorem wordOfBytes_lanes (v : Word) :
    wordOfBytes (byteLane v 0) (byteLane v 1) (byteLane v 2) (byteLane v 3) = v := by
  ext i hi
  interval_cases i <;> simp [byteLane, wordOfBytes]

/-- The lanes of `le32` are the four bytes. -/
theorem Ram.byteLane_le32 (r : Ram) (a k : Nat) (hk : k < 4) : byteLane (r.le32 a) k = r.byte (a + k) := by
  simp only [Ram.le32]
  interval_cases k
  · exact byteLane_wordOfBytes_0 ..
  · exact byteLane_wordOfBytes_1 ..
  · exact byteLane_wordOfBytes_2 ..
  · exact byteLane_wordOfBytes_3 ..

/-- A word depends on its four bytes only. -/
theorem Ram.le32_congr {r r' : Ram} {a : Nat} (h : ∀ b, a ≤ b → b < a + 4 → r'.byte b = r.byte b) :
    r'.le32 a = r.le32 a := by
  simp only [Ram.le32]
  rw [h a (by omega) (by omega), h (a + 1) (by omega) (by omega), h (a + 2) (by omega) (by omega),
    h (a + 3) (by omega) (by omega)]

/-- Equal words have equal bytes. -/
theorem Ram.byte_of_le32 {r r' : Ram} {a : Nat} (h : r'.le32 a = r.le32 a) (k : Nat) (hk : k < 4) :
    r'.byte (a + k) = r.byte (a + k) := by
  rw [← Ram.byteLane_le32 r' a k hk, ← Ram.byteLane_le32 r a k hk, h]

/-- The read of one byte after the write of a word. -/
theorem Ram.byte_putLe32 (r : Ram) (a : Nat) (v : Word) (b : Nat) :
    (r.putLe32 a v).byte b = if a ≤ b ∧ b < a + 4 then byteLane v (b - a) else r.byte b := by
  simp only [Ram.putLe32, Ram.byte_put]
  split
  · subst_vars
    simp
  · split
    · subst_vars
      simp
    · split
      · subst_vars
        simp
      · split
        · subst_vars
          simp
        · rw [if_neg (by omega)]

@[simp] theorem Ram.putLe32_epoch (r : Ram) (a : Nat) (v : Word) : (r.putLe32 a v).epoch = r.epoch := rfl

/-- A written word reads back. -/
@[simp] theorem Ram.le32_putLe32 (r : Ram) (a : Nat) (v : Word) : (r.putLe32 a v).le32 a = v := by
  simp only [Ram.le32, Ram.byte_putLe32]
  simp

/-- A written word leaves every word disjoint from it. -/
theorem Ram.le32_putLe32_disjoint (r : Ram) {a b : Nat} (v : Word) (h : b + 4 ≤ a ∨ a + 4 ≤ b) :
    (r.putLe32 a v).le32 b = r.le32 b := by
  refine Ram.le32_congr fun c h1 h2 => ?_
  rw [Ram.byte_putLe32, if_neg (by omega)]

theorem Ram.putLe32_wf {r : Ram} (h : r.cells.wf) (a : Nat) (v : Word) : (r.putLe32 a v).cells.wf :=
  Ram.put_wf (Ram.put_wf (Ram.put_wf (Ram.put_wf h _ _) _ _) _ _) _ _

theorem Ram.putLe32_below {n : Nat} {r : Ram} (h : r.below n) {a : Nat} (ha : a + 4 ≤ n) (v : Word) :
    (r.putLe32 a v).below n :=
  Ram.put_below (Ram.put_below (Ram.put_below (Ram.put_below h (by omega) _) (by omega) _) (by omega) _) (by omega) _

/-! ## Cipher blocks -/

/-- Byte `k` of a block in the RAM. -/
theorem Ram.get_block (r : Ram) (a k : Nat) (hk : k < 8) : (r.block a).get k = r.byte (a + k) := by
  interval_cases k <;> rfl

/-- A block depends on its eight bytes only. -/
theorem Ram.block_congr {r r' : Ram} {a : Nat} (h : ∀ b, a ≤ b → b < a + 8 → r'.byte b = r.byte b) :
    r'.block a = r.block a := by
  simp only [Ram.block]
  rw [h a (by omega) (by omega), h (a + 1) (by omega) (by omega), h (a + 2) (by omega) (by omega),
    h (a + 3) (by omega) (by omega), h (a + 4) (by omega) (by omega), h (a + 5) (by omega) (by omega),
    h (a + 6) (by omega) (by omega), h (a + 7) (by omega) (by omega)]

/-- Equal blocks have equal bytes. -/
theorem Ram.byte_of_block {r r' : Ram} {a : Nat} (h : r'.block a = r.block a) (k : Nat) (hk : k < 8) :
    r'.byte (a + k) = r.byte (a + k) := by
  rw [← Ram.get_block r' a k hk, ← Ram.get_block r a k hk, h]

/-- The write of a block leaves every byte outside it. -/
theorem Ram.byte_putBlock_outside (r : Ram) {a : Nat} (x : Block) {b : Nat} (h : b < a ∨ a + 8 ≤ b) :
    (r.putBlock a x).byte b = r.byte b := by
  simp only [Ram.putBlock, Ram.byte_put]
  repeat rw [if_neg (by omega)]

/-- A written block reads back. -/
@[simp] theorem Ram.block_putBlock (r : Ram) (a : Nat) (x : Block) : (r.putBlock a x).block a = x := by
  simp [Ram.block, Ram.putBlock]

/-- A written block leaves every block disjoint from it. -/
theorem Ram.block_putBlock_disjoint (r : Ram) {a b : Nat} (x : Block) (h : b + 8 ≤ a ∨ a + 8 ≤ b) :
    (r.putBlock a x).block b = r.block b :=
  Ram.block_congr fun _ h1 h2 => Ram.byte_putBlock_outside r x (by omega)

@[simp] theorem Ram.putBlock_epoch (r : Ram) (a : Nat) (x : Block) : (r.putBlock a x).epoch = r.epoch := rfl

theorem Ram.putBlock_wf {r : Ram} (h : r.cells.wf) (a : Nat) (x : Block) : (r.putBlock a x).cells.wf :=
  Ram.put_wf (Ram.put_wf (Ram.put_wf (Ram.put_wf (Ram.put_wf (Ram.put_wf (Ram.put_wf (Ram.put_wf h _ _) _ _) _ _) _ _)
    _ _) _ _) _ _) _ _

theorem Ram.putBlock_below {n : Nat} {r : Ram} (h : r.below n) {a : Nat} (ha : a + 8 ≤ n) (x : Block) :
    (r.putBlock a x).below n := by
  unfold Ram.putBlock
  iterate 8 refine Ram.put_below ?_ (by omega) _
  exact h

/-! ## Byte sequences -/

@[simp] theorem Ram.read_length (r : Ram) (a n : Nat) : (r.read a n).length = n := by simp [Ram.read]

/-- Byte `i` of a sequence read. -/
theorem Ram.getElem?_read (r : Ram) (a n i : Nat) (hi : i < n) : (r.read a n)[i]? = some (r.byte (a + i)) := by
  simp [Ram.read, hi]

/-! ## Loops -/

@[simp] theorem forRange_zero {α : Type} (f : Nat → α → α) (x : α) : forRange 0 f x = x := rfl

@[simp] theorem forRange_succ {α : Type} (n : Nat) (f : Nat → α → α) (x : α) :
    forRange (n + 1) f x = f n (forRange n f x) := rfl

/-- What every pass of a loop keeps holds after it. -/
theorem forRange_induct {α : Type} {n : Nat} {f : Nat → α → α} {x : α} (P : Nat → α → Prop) (h0 : P 0 x)
    (hs : ∀ i y, i < n → P i y → P (i + 1) (f i y)) : P n (forRange n f x) := by
  induction n with
  | zero => exact h0
  | succ n ih => exact hs n _ (by omega) (ih fun i y hi => hs i y (by omega))

end Sys2Proof.Machine
end

