-- ==== Sys2Proof/Laws/State.lean ====
section
/-! SUPPORT. One lemma per field per state update, so that no later proof unfolds an update. -/

namespace Sys2Proof.Machine

/-! ## complete -/

@[simp] theorem State.complete_ie (s : State) (code : Result) (ck : Bool) : (s.complete code ck).ie = s.ie := rfl
@[simp] theorem State.complete_busy (s : State) (code : Result) (ck : Bool) : (s.complete code ck).busy = false := rfl
@[simp] theorem State.complete_done (s : State) (code : Result) (ck : Bool) : (s.complete code ck).done = true := rfl
@[simp] theorem State.complete_ckOk (s : State) (code : Result) (ck : Bool) : (s.complete code ck).ckOk = ck := rfl
@[simp] theorem State.complete_haz (s : State) (code : Result) (ck : Bool) : (s.complete code ck).haz = s.haz := rfl
@[simp] theorem State.complete_result (s : State) (code : Result) (ck : Bool) :
    (s.complete code ck).result = code := rfl
@[simp] theorem State.complete_cmd (s : State) (code : Result) (ck : Bool) : (s.complete code ck).cmd = s.cmd := rfl
@[simp] theorem State.complete_offset (s : State) (code : Result) (ck : Bool) :
    (s.complete code ck).offset = s.offset := rfl
@[simp] theorem State.complete_size (s : State) (code : Result) (ck : Bool) : (s.complete code ck).size = s.size := rfl
@[simp] theorem State.complete_obfKey (s : State) (code : Result) (ck : Bool) :
    (s.complete code ck).obfKey = s.obfKey := rfl
@[simp] theorem State.complete_slots (s : State) (code : Result) (ck : Bool) :
    (s.complete code ck).slots = s.slots := rfl
@[simp] theorem State.complete_ram (s : State) (code : Result) (ck : Bool) : (s.complete code ck).ram = s.ram := rfl
@[simp] theorem State.complete_cfg (s : State) (code : Result) (ck : Bool) : (s.complete code ck).cfg = s.cfg := rfl
@[simp] theorem State.complete_draws (s : State) (code : Result) (ck : Bool) :
    (s.complete code ck).draws = s.draws := rfl
@[simp] theorem State.complete_rdata (s : State) (code : Result) (ck : Bool) :
    (s.complete code ck).rdata = s.rdata := rfl
@[simp] theorem State.complete_hostFault (s : State) (code : Result) (ck : Bool) :
    (s.complete code ck).hostFault = s.hostFault := rfl
@[simp] theorem State.complete_host (s : State) (code : Result) (ck : Bool) : (s.complete code ck).host = s.host := rfl
@[simp] theorem State.complete_inbox (s : State) (code : Result) (ck : Bool) :
    (s.complete code ck).inbox = s.inbox := rfl

/-! ## issue -/

@[simp] theorem State.issue_ie (s : State) (v : Word) : (s.issue v).ie = s.ie := rfl
@[simp] theorem State.issue_busy (s : State) (v : Word) : (s.issue v).busy = true := rfl
@[simp] theorem State.issue_done (s : State) (v : Word) : (s.issue v).done = false := rfl
@[simp] theorem State.issue_ckOk (s : State) (v : Word) : (s.issue v).ckOk = false := rfl
@[simp] theorem State.issue_haz (s : State) (v : Word) : (s.issue v).haz = s.haz := rfl
@[simp] theorem State.issue_result (s : State) (v : Word) : (s.issue v).result = .ok := rfl
@[simp] theorem State.issue_cmd (s : State) (v : Word) : (s.issue v).cmd = v := rfl
@[simp] theorem State.issue_offset (s : State) (v : Word) : (s.issue v).offset = s.offset := rfl
@[simp] theorem State.issue_size (s : State) (v : Word) : (s.issue v).size = s.size := rfl
@[simp] theorem State.issue_obfKey (s : State) (v : Word) : (s.issue v).obfKey = s.obfKey := rfl
@[simp] theorem State.issue_slots (s : State) (v : Word) : (s.issue v).slots = s.slots := rfl
@[simp] theorem State.issue_ram (s : State) (v : Word) : (s.issue v).ram = s.ram := rfl
@[simp] theorem State.issue_cfg (s : State) (v : Word) : (s.issue v).cfg = s.cfg := rfl
@[simp] theorem State.issue_draws (s : State) (v : Word) : (s.issue v).draws = s.draws := rfl
@[simp] theorem State.issue_rdata (s : State) (v : Word) : (s.issue v).rdata = s.rdata := rfl
@[simp] theorem State.issue_hostFault (s : State) (v : Word) : (s.issue v).hostFault = s.hostFault := rfl
@[simp] theorem State.issue_host (s : State) (v : Word) : (s.issue v).host = s.host := rfl
@[simp] theorem State.issue_inbox (s : State) (v : Word) : (s.issue v).inbox = s.inbox := rfl

/-! ## acknowledge -/

@[simp] theorem State.acknowledge_ie (s : State) : (s.acknowledge).ie = s.ie := rfl
@[simp] theorem State.acknowledge_busy (s : State) : (s.acknowledge).busy = s.busy := rfl
@[simp] theorem State.acknowledge_done (s : State) : (s.acknowledge).done = false := rfl
@[simp] theorem State.acknowledge_ckOk (s : State) : (s.acknowledge).ckOk = s.ckOk := rfl
@[simp] theorem State.acknowledge_haz (s : State) : (s.acknowledge).haz = s.haz := rfl
@[simp] theorem State.acknowledge_result (s : State) : (s.acknowledge).result = s.result := rfl
@[simp] theorem State.acknowledge_cmd (s : State) : (s.acknowledge).cmd = s.cmd := rfl
@[simp] theorem State.acknowledge_offset (s : State) : (s.acknowledge).offset = s.offset := rfl
@[simp] theorem State.acknowledge_size (s : State) : (s.acknowledge).size = s.size := rfl
@[simp] theorem State.acknowledge_obfKey (s : State) : (s.acknowledge).obfKey = s.obfKey := rfl
@[simp] theorem State.acknowledge_slots (s : State) : (s.acknowledge).slots = s.slots := rfl
@[simp] theorem State.acknowledge_ram (s : State) : (s.acknowledge).ram = s.ram := rfl
@[simp] theorem State.acknowledge_cfg (s : State) : (s.acknowledge).cfg = s.cfg := rfl
@[simp] theorem State.acknowledge_draws (s : State) : (s.acknowledge).draws = s.draws := rfl
@[simp] theorem State.acknowledge_rdata (s : State) : (s.acknowledge).rdata = s.rdata := rfl
@[simp] theorem State.acknowledge_hostFault (s : State) : (s.acknowledge).hostFault = s.hostFault := rfl
@[simp] theorem State.acknowledge_host (s : State) : (s.acknowledge).host = s.host := rfl
@[simp] theorem State.acknowledge_inbox (s : State) : (s.acknowledge).inbox = s.inbox := rfl

/-! ## setSlot -/

@[simp] theorem State.setSlot_ie (s : State) (slot : BitVec 4) (x : Slot) : (s.setSlot slot x).ie = s.ie := rfl
@[simp] theorem State.setSlot_busy (s : State) (slot : BitVec 4) (x : Slot) : (s.setSlot slot x).busy = s.busy := rfl
@[simp] theorem State.setSlot_done (s : State) (slot : BitVec 4) (x : Slot) : (s.setSlot slot x).done = s.done := rfl
@[simp] theorem State.setSlot_ckOk (s : State) (slot : BitVec 4) (x : Slot) : (s.setSlot slot x).ckOk = s.ckOk := rfl
@[simp] theorem State.setSlot_haz (s : State) (slot : BitVec 4) (x : Slot) : (s.setSlot slot x).haz = s.haz := rfl
@[simp] theorem State.setSlot_result (s : State) (slot : BitVec 4) (x : Slot) :
    (s.setSlot slot x).result = s.result := rfl
@[simp] theorem State.setSlot_cmd (s : State) (slot : BitVec 4) (x : Slot) : (s.setSlot slot x).cmd = s.cmd := rfl
@[simp] theorem State.setSlot_offset (s : State) (slot : BitVec 4) (x : Slot) :
    (s.setSlot slot x).offset = s.offset := rfl
@[simp] theorem State.setSlot_size (s : State) (slot : BitVec 4) (x : Slot) : (s.setSlot slot x).size = s.size := rfl
@[simp] theorem State.setSlot_obfKey (s : State) (slot : BitVec 4) (x : Slot) :
    (s.setSlot slot x).obfKey = s.obfKey := rfl
@[simp] theorem State.setSlot_slots (s : State) (slot : BitVec 4) (x : Slot) :
    (s.setSlot slot x).slots = s.slots.set slot.toNat x := rfl
@[simp] theorem State.setSlot_ram (s : State) (slot : BitVec 4) (x : Slot) : (s.setSlot slot x).ram = s.ram := rfl
@[simp] theorem State.setSlot_cfg (s : State) (slot : BitVec 4) (x : Slot) : (s.setSlot slot x).cfg = s.cfg := rfl
@[simp] theorem State.setSlot_draws (s : State) (slot : BitVec 4) (x : Slot) : (s.setSlot slot x).draws = s.draws := rfl
@[simp] theorem State.setSlot_rdata (s : State) (slot : BitVec 4) (x : Slot) : (s.setSlot slot x).rdata = s.rdata := rfl
@[simp] theorem State.setSlot_hostFault (s : State) (slot : BitVec 4) (x : Slot) :
    (s.setSlot slot x).hostFault = s.hostFault := rfl
@[simp] theorem State.setSlot_host (s : State) (slot : BitVec 4) (x : Slot) : (s.setSlot slot x).host = s.host := rfl
@[simp] theorem State.setSlot_inbox (s : State) (slot : BitVec 4) (x : Slot) : (s.setSlot slot x).inbox = s.inbox := rfl

/-! ## resetUnit -/

@[simp] theorem State.resetUnit_ie (s : State) : (s.resetUnit).ie = false := rfl
@[simp] theorem State.resetUnit_busy (s : State) : (s.resetUnit).busy = false := rfl
@[simp] theorem State.resetUnit_done (s : State) : (s.resetUnit).done = false := rfl
@[simp] theorem State.resetUnit_ckOk (s : State) : (s.resetUnit).ckOk = false := rfl
@[simp] theorem State.resetUnit_haz (s : State) : (s.resetUnit).haz = false := rfl
@[simp] theorem State.resetUnit_result (s : State) : (s.resetUnit).result = .ok := rfl
@[simp] theorem State.resetUnit_cmd (s : State) : (s.resetUnit).cmd = 0 := rfl
@[simp] theorem State.resetUnit_offset (s : State) : (s.resetUnit).offset = 0 := rfl
@[simp] theorem State.resetUnit_size (s : State) : (s.resetUnit).size = 0 := rfl
@[simp] theorem State.resetUnit_obfKey (s : State) : (s.resetUnit).obfKey = 0 := rfl
@[simp] theorem State.resetUnit_slots (s : State) : (s.resetUnit).slots = List.replicate s.slots.length Slot.free := rfl
@[simp] theorem State.resetUnit_ram (s : State) : (s.resetUnit).ram = ⟨[], s.ram.epoch + 1⟩ := rfl
@[simp] theorem State.resetUnit_cfg (s : State) : (s.resetUnit).cfg = s.cfg := rfl
@[simp] theorem State.resetUnit_draws (s : State) : (s.resetUnit).draws = s.draws := rfl
@[simp] theorem State.resetUnit_rdata (s : State) : (s.resetUnit).rdata = s.rdata := rfl
@[simp] theorem State.resetUnit_hostFault (s : State) : (s.resetUnit).hostFault = s.hostFault := rfl
@[simp] theorem State.resetUnit_host (s : State) : (s.resetUnit).host = s.host := rfl
@[simp] theorem State.resetUnit_inbox (s : State) : (s.resetUnit).inbox = s.inbox := rfl

/-! ## writeCtrl -/

@[simp] theorem State.writeCtrl_ie (s : State) (v : Word) : (s.writeCtrl v).ie = v.getLsbD 0 := rfl
@[simp] theorem State.writeCtrl_busy (s : State) (v : Word) : (s.writeCtrl v).busy = s.busy := rfl
@[simp] theorem State.writeCtrl_done (s : State) (v : Word) : (s.writeCtrl v).done = s.done := rfl
@[simp] theorem State.writeCtrl_ckOk (s : State) (v : Word) : (s.writeCtrl v).ckOk = s.ckOk := rfl
@[simp] theorem State.writeCtrl_haz (s : State) (v : Word) : (s.writeCtrl v).haz = s.haz := rfl
@[simp] theorem State.writeCtrl_result (s : State) (v : Word) : (s.writeCtrl v).result = s.result := rfl
@[simp] theorem State.writeCtrl_cmd (s : State) (v : Word) : (s.writeCtrl v).cmd = s.cmd := rfl
@[simp] theorem State.writeCtrl_offset (s : State) (v : Word) : (s.writeCtrl v).offset = s.offset := rfl
@[simp] theorem State.writeCtrl_size (s : State) (v : Word) : (s.writeCtrl v).size = s.size := rfl
@[simp] theorem State.writeCtrl_obfKey (s : State) (v : Word) : (s.writeCtrl v).obfKey = s.obfKey := rfl
@[simp] theorem State.writeCtrl_slots (s : State) (v : Word) : (s.writeCtrl v).slots = s.slots := rfl
@[simp] theorem State.writeCtrl_ram (s : State) (v : Word) : (s.writeCtrl v).ram = s.ram := rfl
@[simp] theorem State.writeCtrl_cfg (s : State) (v : Word) : (s.writeCtrl v).cfg = s.cfg := rfl
@[simp] theorem State.writeCtrl_draws (s : State) (v : Word) : (s.writeCtrl v).draws = s.draws := rfl
@[simp] theorem State.writeCtrl_rdata (s : State) (v : Word) : (s.writeCtrl v).rdata = s.rdata := rfl
@[simp] theorem State.writeCtrl_hostFault (s : State) (v : Word) : (s.writeCtrl v).hostFault = s.hostFault := rfl
@[simp] theorem State.writeCtrl_host (s : State) (v : Word) : (s.writeCtrl v).host = s.host := rfl
@[simp] theorem State.writeCtrl_inbox (s : State) (v : Word) : (s.writeCtrl v).inbox = s.inbox := rfl

/-! ## setHaz -/

@[simp] theorem State.setHaz_ie (s : State) : (s.setHaz).ie = s.ie := rfl
@[simp] theorem State.setHaz_busy (s : State) : (s.setHaz).busy = s.busy := rfl
@[simp] theorem State.setHaz_done (s : State) : (s.setHaz).done = s.done := rfl
@[simp] theorem State.setHaz_ckOk (s : State) : (s.setHaz).ckOk = s.ckOk := rfl
@[simp] theorem State.setHaz_haz (s : State) : (s.setHaz).haz = true := rfl
@[simp] theorem State.setHaz_result (s : State) : (s.setHaz).result = s.result := rfl
@[simp] theorem State.setHaz_cmd (s : State) : (s.setHaz).cmd = s.cmd := rfl
@[simp] theorem State.setHaz_offset (s : State) : (s.setHaz).offset = s.offset := rfl
@[simp] theorem State.setHaz_size (s : State) : (s.setHaz).size = s.size := rfl
@[simp] theorem State.setHaz_obfKey (s : State) : (s.setHaz).obfKey = s.obfKey := rfl
@[simp] theorem State.setHaz_slots (s : State) : (s.setHaz).slots = s.slots := rfl
@[simp] theorem State.setHaz_ram (s : State) : (s.setHaz).ram = s.ram := rfl
@[simp] theorem State.setHaz_cfg (s : State) : (s.setHaz).cfg = s.cfg := rfl
@[simp] theorem State.setHaz_draws (s : State) : (s.setHaz).draws = s.draws := rfl
@[simp] theorem State.setHaz_rdata (s : State) : (s.setHaz).rdata = s.rdata := rfl
@[simp] theorem State.setHaz_hostFault (s : State) : (s.setHaz).hostFault = s.hostFault := rfl
@[simp] theorem State.setHaz_host (s : State) : (s.setHaz).host = s.host := rfl
@[simp] theorem State.setHaz_inbox (s : State) : (s.setHaz).inbox = s.inbox := rfl

/-! ## drawRead -/

@[simp] theorem State.drawRead_ie (s : State) : (s.drawRead).ie = s.ie := rfl
@[simp] theorem State.drawRead_busy (s : State) : (s.drawRead).busy = s.busy := rfl
@[simp] theorem State.drawRead_done (s : State) : (s.drawRead).done = s.done := rfl
@[simp] theorem State.drawRead_ckOk (s : State) : (s.drawRead).ckOk = s.ckOk := rfl
@[simp] theorem State.drawRead_haz (s : State) : (s.drawRead).haz = s.haz := rfl
@[simp] theorem State.drawRead_result (s : State) : (s.drawRead).result = s.result := rfl
@[simp] theorem State.drawRead_cmd (s : State) : (s.drawRead).cmd = s.cmd := rfl
@[simp] theorem State.drawRead_offset (s : State) : (s.drawRead).offset = s.offset := rfl
@[simp] theorem State.drawRead_size (s : State) : (s.drawRead).size = s.size := rfl
@[simp] theorem State.drawRead_obfKey (s : State) : (s.drawRead).obfKey = s.obfKey := rfl
@[simp] theorem State.drawRead_slots (s : State) : (s.drawRead).slots = s.slots := rfl
@[simp] theorem State.drawRead_ram (s : State) : (s.drawRead).ram = s.ram := rfl
@[simp] theorem State.drawRead_cfg (s : State) : (s.drawRead).cfg = s.cfg := rfl
@[simp] theorem State.drawRead_draws (s : State) : (s.drawRead).draws = s.draws + 1 := rfl
@[simp] theorem State.drawRead_rdata (s : State) : (s.drawRead).rdata = Config.readDraw s.draws := rfl
@[simp] theorem State.drawRead_hostFault (s : State) : (s.drawRead).hostFault = s.hostFault := rfl
@[simp] theorem State.drawRead_host (s : State) : (s.drawRead).host = s.host := rfl
@[simp] theorem State.drawRead_inbox (s : State) : (s.drawRead).inbox = s.inbox := rfl

/-! ## drawByte -/

@[simp] theorem State.drawByte_ie (s : State) : (s.drawByte).ie = s.ie := rfl
@[simp] theorem State.drawByte_busy (s : State) : (s.drawByte).busy = s.busy := rfl
@[simp] theorem State.drawByte_done (s : State) : (s.drawByte).done = s.done := rfl
@[simp] theorem State.drawByte_ckOk (s : State) : (s.drawByte).ckOk = s.ckOk := rfl
@[simp] theorem State.drawByte_haz (s : State) : (s.drawByte).haz = s.haz := rfl
@[simp] theorem State.drawByte_result (s : State) : (s.drawByte).result = s.result := rfl
@[simp] theorem State.drawByte_cmd (s : State) : (s.drawByte).cmd = s.cmd := rfl
@[simp] theorem State.drawByte_offset (s : State) : (s.drawByte).offset = s.offset := rfl
@[simp] theorem State.drawByte_size (s : State) : (s.drawByte).size = s.size := rfl
@[simp] theorem State.drawByte_obfKey (s : State) : (s.drawByte).obfKey = s.obfKey := rfl
@[simp] theorem State.drawByte_slots (s : State) : (s.drawByte).slots = s.slots := rfl
@[simp] theorem State.drawByte_ram (s : State) : (s.drawByte).ram = s.ram := rfl
@[simp] theorem State.drawByte_cfg (s : State) : (s.drawByte).cfg = s.cfg := rfl
@[simp] theorem State.drawByte_draws (s : State) : (s.drawByte).draws = s.draws + 1 := rfl
@[simp] theorem State.drawByte_rdata (s : State) :
    (s.drawByte).rdata = ((Config.readDraw s.draws).truncate 8).zeroExtend 32 := rfl
@[simp] theorem State.drawByte_hostFault (s : State) : (s.drawByte).hostFault = s.hostFault := rfl
@[simp] theorem State.drawByte_host (s : State) : (s.drawByte).host = s.host := rfl
@[simp] theorem State.drawByte_inbox (s : State) : (s.drawByte).inbox = s.inbox := rfl

/-! ## busError -/

@[simp] theorem State.busError_ie (s : State) (f : Fault) : (s.busError f).ie = s.ie := rfl
@[simp] theorem State.busError_busy (s : State) (f : Fault) : (s.busError f).busy = s.busy := rfl
@[simp] theorem State.busError_done (s : State) (f : Fault) : (s.busError f).done = s.done := rfl
@[simp] theorem State.busError_ckOk (s : State) (f : Fault) : (s.busError f).ckOk = s.ckOk := rfl
@[simp] theorem State.busError_haz (s : State) (f : Fault) : (s.busError f).haz = s.haz := rfl
@[simp] theorem State.busError_result (s : State) (f : Fault) : (s.busError f).result = s.result := rfl
@[simp] theorem State.busError_cmd (s : State) (f : Fault) : (s.busError f).cmd = s.cmd := rfl
@[simp] theorem State.busError_offset (s : State) (f : Fault) : (s.busError f).offset = s.offset := rfl
@[simp] theorem State.busError_size (s : State) (f : Fault) : (s.busError f).size = s.size := rfl
@[simp] theorem State.busError_obfKey (s : State) (f : Fault) : (s.busError f).obfKey = s.obfKey := rfl
@[simp] theorem State.busError_slots (s : State) (f : Fault) : (s.busError f).slots = s.slots := rfl
@[simp] theorem State.busError_ram (s : State) (f : Fault) : (s.busError f).ram = s.ram := rfl
@[simp] theorem State.busError_cfg (s : State) (f : Fault) : (s.busError f).cfg = s.cfg := rfl
@[simp] theorem State.busError_draws (s : State) (f : Fault) : (s.busError f).draws = s.draws := rfl
@[simp] theorem State.busError_rdata (s : State) (f : Fault) : (s.busError f).rdata = s.rdata := rfl
@[simp] theorem State.busError_hostFault (s : State) (f : Fault) :
    (s.busError f).hostFault = match s.hostFault with | some g => some g | none => some f := rfl
@[simp] theorem State.busError_host (s : State) (f : Fault) : (s.busError f).host = s.host := rfl
@[simp] theorem State.busError_inbox (s : State) (f : Fault) : (s.busError f).inbox = s.inbox := rfl

/-! ## inFlight -/

@[simp] theorem State.inFlight_ie (s : State) (v : Word) : (s.inFlight v).ie = s.ie := rfl
@[simp] theorem State.inFlight_busy (s : State) (v : Word) : (s.inFlight v).busy = true := rfl
@[simp] theorem State.inFlight_done (s : State) (v : Word) : (s.inFlight v).done = false := rfl
@[simp] theorem State.inFlight_ckOk (s : State) (v : Word) : (s.inFlight v).ckOk = false := rfl
@[simp] theorem State.inFlight_haz (s : State) (v : Word) : (s.inFlight v).haz = s.haz := rfl
@[simp] theorem State.inFlight_result (s : State) (v : Word) : (s.inFlight v).result = .ok := rfl
@[simp] theorem State.inFlight_cmd (s : State) (v : Word) : (s.inFlight v).cmd = v := rfl
@[simp] theorem State.inFlight_offset (s : State) (v : Word) : (s.inFlight v).offset = s.offset := rfl
@[simp] theorem State.inFlight_size (s : State) (v : Word) : (s.inFlight v).size = s.size := rfl
@[simp] theorem State.inFlight_obfKey (s : State) (v : Word) : (s.inFlight v).obfKey = s.obfKey := rfl
@[simp] theorem State.inFlight_slots (s : State) (v : Word) : (s.inFlight v).slots = s.slots := rfl
@[simp] theorem State.inFlight_ram (s : State) (v : Word) : (s.inFlight v).ram = s.ram := rfl
@[simp] theorem State.inFlight_cfg (s : State) (v : Word) : (s.inFlight v).cfg = s.cfg := rfl
@[simp] theorem State.inFlight_draws (s : State) (v : Word) : (s.inFlight v).draws = s.draws := rfl
@[simp] theorem State.inFlight_rdata (s : State) (v : Word) : (s.inFlight v).rdata = s.rdata := rfl
@[simp] theorem State.inFlight_hostFault (s : State) (v : Word) : (s.inFlight v).hostFault = s.hostFault := rfl
@[simp] theorem State.inFlight_host (s : State) (v : Word) : (s.inFlight v).host = s.host := rfl
@[simp] theorem State.inFlight_inbox (s : State) (v : Word) : (s.inFlight v).inbox = [] := rfl

/-! ## clearHaz and writeStatus: only HAZ and DONE -/

@[simp] theorem State.clearHaz_ie (s : State) (v : Word) : (s.clearHaz v).ie = s.ie := by
  unfold State.clearHaz; split <;> rfl
@[simp] theorem State.clearHaz_busy (s : State) (v : Word) : (s.clearHaz v).busy = s.busy := by
  unfold State.clearHaz; split <;> rfl
@[simp] theorem State.clearHaz_done (s : State) (v : Word) : (s.clearHaz v).done = s.done := by
  unfold State.clearHaz; split <;> rfl
@[simp] theorem State.clearHaz_ckOk (s : State) (v : Word) : (s.clearHaz v).ckOk = s.ckOk := by
  unfold State.clearHaz; split <;> rfl
@[simp] theorem State.clearHaz_result (s : State) (v : Word) : (s.clearHaz v).result = s.result := by
  unfold State.clearHaz; split <;> rfl
@[simp] theorem State.clearHaz_cmd (s : State) (v : Word) : (s.clearHaz v).cmd = s.cmd := by
  unfold State.clearHaz; split <;> rfl
@[simp] theorem State.clearHaz_offset (s : State) (v : Word) : (s.clearHaz v).offset = s.offset := by
  unfold State.clearHaz; split <;> rfl
@[simp] theorem State.clearHaz_size (s : State) (v : Word) : (s.clearHaz v).size = s.size := by
  unfold State.clearHaz; split <;> rfl
@[simp] theorem State.clearHaz_obfKey (s : State) (v : Word) : (s.clearHaz v).obfKey = s.obfKey := by
  unfold State.clearHaz; split <;> rfl
@[simp] theorem State.clearHaz_slots (s : State) (v : Word) : (s.clearHaz v).slots = s.slots := by
  unfold State.clearHaz; split <;> rfl
@[simp] theorem State.clearHaz_ram (s : State) (v : Word) : (s.clearHaz v).ram = s.ram := by
  unfold State.clearHaz; split <;> rfl
@[simp] theorem State.clearHaz_cfg (s : State) (v : Word) : (s.clearHaz v).cfg = s.cfg := by
  unfold State.clearHaz; split <;> rfl
@[simp] theorem State.clearHaz_draws (s : State) (v : Word) : (s.clearHaz v).draws = s.draws := by
  unfold State.clearHaz; split <;> rfl
@[simp] theorem State.clearHaz_rdata (s : State) (v : Word) : (s.clearHaz v).rdata = s.rdata := by
  unfold State.clearHaz; split <;> rfl
@[simp] theorem State.clearHaz_hostFault (s : State) (v : Word) : (s.clearHaz v).hostFault = s.hostFault := by
  unfold State.clearHaz; split <;> rfl
@[simp] theorem State.clearHaz_host (s : State) (v : Word) : (s.clearHaz v).host = s.host := by
  unfold State.clearHaz; split <;> rfl
@[simp] theorem State.clearHaz_inbox (s : State) (v : Word) : (s.clearHaz v).inbox = s.inbox := by
  unfold State.clearHaz; split <;> rfl
@[simp] theorem State.clearHaz_haz (s : State) (v : Word) : (s.clearHaz v).haz = (s.haz && !v.getLsbD 3) := by
  unfold State.clearHaz; split <;> simp_all

@[simp] theorem State.writeStatus_ie (s : State) (v : Word) : (s.writeStatus v).ie = s.ie := by
  unfold State.writeStatus; split <;> simp
@[simp] theorem State.writeStatus_busy (s : State) (v : Word) : (s.writeStatus v).busy = s.busy := by
  unfold State.writeStatus; split <;> simp
@[simp] theorem State.writeStatus_ckOk (s : State) (v : Word) : (s.writeStatus v).ckOk = s.ckOk := by
  unfold State.writeStatus; split <;> simp
@[simp] theorem State.writeStatus_result (s : State) (v : Word) : (s.writeStatus v).result = s.result := by
  unfold State.writeStatus; split <;> simp
@[simp] theorem State.writeStatus_cmd (s : State) (v : Word) : (s.writeStatus v).cmd = s.cmd := by
  unfold State.writeStatus; split <;> simp
@[simp] theorem State.writeStatus_offset (s : State) (v : Word) : (s.writeStatus v).offset = s.offset := by
  unfold State.writeStatus; split <;> simp
@[simp] theorem State.writeStatus_size (s : State) (v : Word) : (s.writeStatus v).size = s.size := by
  unfold State.writeStatus; split <;> simp
@[simp] theorem State.writeStatus_obfKey (s : State) (v : Word) : (s.writeStatus v).obfKey = s.obfKey := by
  unfold State.writeStatus; split <;> simp
@[simp] theorem State.writeStatus_slots (s : State) (v : Word) : (s.writeStatus v).slots = s.slots := by
  unfold State.writeStatus; split <;> simp
@[simp] theorem State.writeStatus_ram (s : State) (v : Word) : (s.writeStatus v).ram = s.ram := by
  unfold State.writeStatus; split <;> simp
@[simp] theorem State.writeStatus_cfg (s : State) (v : Word) : (s.writeStatus v).cfg = s.cfg := by
  unfold State.writeStatus; split <;> simp
@[simp] theorem State.writeStatus_draws (s : State) (v : Word) : (s.writeStatus v).draws = s.draws := by
  unfold State.writeStatus; split <;> simp
@[simp] theorem State.writeStatus_rdata (s : State) (v : Word) : (s.writeStatus v).rdata = s.rdata := by
  unfold State.writeStatus; split <;> simp
@[simp] theorem State.writeStatus_hostFault (s : State) (v : Word) : (s.writeStatus v).hostFault = s.hostFault := by
  unfold State.writeStatus; split <;> simp
@[simp] theorem State.writeStatus_host (s : State) (v : Word) : (s.writeStatus v).host = s.host := by
  unfold State.writeStatus; split <;> simp
@[simp] theorem State.writeStatus_inbox (s : State) (v : Word) : (s.writeStatus v).inbox = s.inbox := by
  unfold State.writeStatus; split <;> simp
@[simp] theorem State.writeStatus_haz (s : State) (v : Word) : (s.writeStatus v).haz = (s.haz && !v.getLsbD 3) := by
  unfold State.writeStatus; split <;> simp
@[simp] theorem State.writeStatus_done (s : State) (v : Word) : (s.writeStatus v).done = (s.done && !v.getLsbD 1) := by
  unfold State.writeStatus; split <;> simp_all

/-! ## The outcomes of a completion -/

@[simp] theorem State.raise_eq (s : State) (code : Result) : s.raise code = .next (s.complete code false) := rfl

@[simp] theorem State.completeOk_eq (s : State) : s.completeOk = .next (s.complete .ok false) := rfl

/-- The window check, as a proposition (60_exceptions.md R203). -/
theorem State.windowFits_eq_true (s : State) : s.windowFits = true ↔ s.off + s.len ≤ s.cfg.dataBytes := by
  simp [State.windowFits]

theorem State.windowFits_eq_false (s : State) : s.windowFits = false ↔ s.cfg.dataBytes < s.off + s.len := by
  simp [State.windowFits]

theorem State.keyLenOk_eq_false (s : State) : s.keyLenOk = false ↔ s.len = 0 ∨ s.cfg.keyMaxBytes < s.len := by
  simp only [State.keyLenOk, decide_eq_false_iff_not]
  omega

theorem checksumSizeOk_eq_false (n : Nat) : checksumSizeOk n = false ↔ n % 4 ≠ 0 ∨ n ≤ 4 := by
  simp only [checksumSizeOk, decide_eq_false_iff_not]
  omega

theorem obfSizeOk_eq_false (n : Nat) : obfSizeOk n = false ↔ n < 9 := by simp [obfSizeOk]

theorem modSizeOk_eq_false (n : Nat) : modSizeOk n = false ↔ n ≠ 128 := by simp [modSizeOk]

/-- The slot a slot write leaves at an index (10_state.md R30: no other slot changes). -/
theorem State.setSlot_getElem? (s : State) (slot : BitVec 4) (x : Slot) (j : Nat) :
    (s.setSlot slot x).slots[j]? = if slot.toNat = j ∧ j < s.slots.length then some x else s.slots[j]? := by
  simp only [State.setSlot_slots, List.getElem?_set]
  by_cases h : slot.toNat = j
  · by_cases h2 : j < s.slots.length
    · simp [h, h2]
    · simp [h, h2]
  · simp [h]

end Sys2Proof.Machine
end

