-- ==== Sys2Proof/Laws/Commands.lean ====
section
/-! SUPPORT. What each datapath loop does, said once: the bytes it changes, the bytes it leaves, and that it keeps the
canonical form, the address range and the reset count of the RAM. -/

namespace Sys2Proof.Machine

/-! ## What a RAM operation keeps -/

/-- A RAM operation that writes below `n` only: it keeps the canonical form, the range and the draw of RAM_INIT. -/
structure Ram.Keeps (n : Nat) (r r' : Ram) : Prop where
  wf : r.cells.wf → r'.cells.wf
  below : r.below n → r'.below n
  epoch : r'.epoch = r.epoch

theorem Ram.Keeps.refl (n : Nat) (r : Ram) : Ram.Keeps n r r := ⟨id, id, rfl⟩

theorem Ram.Keeps.trans {n : Nat} {r r' r'' : Ram} (h : Ram.Keeps n r r') (h' : Ram.Keeps n r' r'') :
    Ram.Keeps n r r'' := ⟨h'.wf ∘ h.wf, h'.below ∘ h.below, h'.epoch.trans h.epoch⟩

theorem Ram.Keeps.put {n : Nat} (r : Ram) {a : Nat} (ha : a < n) (x : Byte) : Ram.Keeps n r (r.put a x) :=
  ⟨fun h => Ram.put_wf h a x, fun h => Ram.put_below h ha x, rfl⟩

theorem Ram.Keeps.putLe32 {n : Nat} (r : Ram) {a : Nat} (ha : a + 4 ≤ n) (v : Word) : Ram.Keeps n r (r.putLe32 a v) :=
  ⟨fun h => Ram.putLe32_wf h a v, fun h => Ram.putLe32_below h ha v, rfl⟩

theorem Ram.Keeps.putBlock {n : Nat} (r : Ram) {a : Nat} (ha : a + 8 ≤ n) (x : Block) :
    Ram.Keeps n r (r.putBlock a x) :=
  ⟨fun h => Ram.putBlock_wf h a x, fun h => Ram.putBlock_below h ha x, rfl⟩

/-- A loop whose passes keep, keeps. -/
theorem Ram.Keeps.forRange {n m : Nat} {f : Nat → Ram → Ram} (r : Ram)
    (h : ∀ i q, i < m → Ram.Keeps n q (f i q)) : Ram.Keeps n r (forRange m f r) :=
  forRange_induct (P := fun _ q => Ram.Keeps n r q) (Ram.Keeps.refl n r) fun i _ hi hq => hq.trans (h i _ hi)

/-! ## Block loop -/

/-- The block loop: every block of the grid is replaced by its image, every other byte stays (40_session.md R106, R110). -/
theorem mapBlocks_spec (f : Block → Block) (off n : Nat) (r : Ram) :
    (∀ k, k < n → (mapBlocks f off n r).block (off + 8 * k) = f (r.block (off + 8 * k))) ∧
    (∀ a, a < off ∨ off + 8 * n ≤ a → (mapBlocks f off n r).byte a = r.byte a) := by
  induction n with
  | zero => exact ⟨fun _ h => absurd h (Nat.not_lt_zero _), fun _ _ => rfl⟩
  | succ n ih =>
    have e : mapBlocks f off (n + 1) r =
        (mapBlocks f off n r).putBlock (off + 8 * n) (f ((mapBlocks f off n r).block (off + 8 * n))) := rfl
    have hn : (mapBlocks f off n r).block (off + 8 * n) = r.block (off + 8 * n) :=
      Ram.block_congr fun b h1 _ => ih.2 b (by omega)
    rw [e, hn]
    refine ⟨fun k hk => ?_, fun a ha => ?_⟩
    · rcases Nat.lt_succ_iff_lt_or_eq.1 hk with hk | rfl
      · rw [Ram.block_putBlock_disjoint _ _ (by omega), ih.1 k hk]
      · simp
    · rw [Ram.byte_putBlock_outside _ _ (by omega), ih.2 a (by omega)]

theorem mapBlocks_keeps (f : Block → Block) (off n m : Nat) (r : Ram) (h : off + 8 * n ≤ m) :
    Ram.Keeps m r (mapBlocks f off n r) :=
  Ram.Keeps.forRange r fun _ q hi => Ram.Keeps.putBlock q (by omega) _

/-- The whole blocks of a window end inside it. -/
theorem blockCount_le (size : Nat) : 8 * blockCount size ≤ size := by
  unfold blockCount
  omega

/-! ## Checksum fold -/

/-- The machine's fold is the XOR of the words (41_checksum.md R134). -/
theorem foldWords_eq (r : Ram) (off n : Nat) : foldWords r off n = xorOfWords r off n := by
  induction n with
  | zero => rfl
  | succ n ih =>
    have e : foldWords r off (n + 1) = foldWords r off n ^^^ r.le32 (off + 4 * n) := rfl
    rw [e, ih]
    simp [xorOfWords, List.range_succ]

theorem xorOfWords_succ (r : Ram) (off n : Nat) :
    xorOfWords r off (n + 1) = xorOfWords r off n ^^^ r.le32 (off + 4 * n) := by
  simp [xorOfWords, List.range_succ]

/-- The fold depends on the words' bytes only. -/
theorem xorOfWords_congr {r q : Ram} {off n : Nat} (h : ∀ a, off ≤ a → a < off + 4 * n → q.byte a = r.byte a) :
    xorOfWords q off n = xorOfWords r off n := by
  induction n with
  | zero => rfl
  | succ n ih =>
    rw [xorOfWords_succ, xorOfWords_succ, ih fun a h1 h2 => h a h1 (by omega),
      Ram.le32_congr fun b h1 h2 => h b (by omega) (by omega)]

/-! ## Obfuscator loops -/

/-- The grid of an accepted window ends before the trailing 4 bytes (42_obfuscator.md R153). -/
theorem obfWords_grid {size : Nat} (h : 9 ≤ size) : 4 * (obfWords size + 1) + 4 < size := by
  unfold obfWords
  omega

/-- The encode loop: the accumulator is the running sum, each grid word is XORed with it, other bytes stay (R151). -/
theorem obfEncLoop_spec (off n : Nat) (key : Word) (r : Ram) :
    (obfEncLoop off n key r).1 = encAcc r off key n ∧
    (∀ j, 1 ≤ j → j ≤ n →
      (obfEncLoop off n key r).2.le32 (off + 4 * j) = r.le32 (off + 4 * j) ^^^ encAcc r off key j) ∧
    (∀ a, a < off + 4 ∨ off + 4 * (n + 1) ≤ a → (obfEncLoop off n key r).2.byte a = r.byte a) := by
  induction n with
  | zero => exact ⟨rfl, fun _ h1 h2 => absurd (h1.trans h2) (by omega), fun _ _ => rfl⟩
  | succ n ih =>
    obtain ⟨i1, i2, i3⟩ := ih
    have e : obfEncLoop off (n + 1) key r = obfEncStep off (n + 1) (obfEncLoop off n key r) := rfl
    have hw : (obfEncLoop off n key r).2.le32 (off + 4 * (n + 1)) = r.le32 (off + 4 * (n + 1)) :=
      Ram.le32_congr fun b h1 _ => i3 b (by omega)
    rw [e]
    simp only [obfEncStep, hw, i1]
    refine ⟨rfl, fun j h1 h2 => ?_, fun a ha => ?_⟩
    · rcases Nat.le_succ_iff.1 h2 with h2 | rfl
      · rw [Ram.le32_putLe32_disjoint _ _ (by omega), i2 j h1 h2]
      · simp [encAcc]
    · rw [Ram.byte_putLe32, if_neg (by omega), i3 a (by omega)]

theorem obfEncLoop_keeps (off n m : Nat) (key : Word) (r : Ram) (h : off + 4 * (n + 1) ≤ m) :
    Ram.Keeps m r (obfEncLoop off n key r).2 :=
  forRange_induct (P := fun _ (x : Word × Ram) => Ram.Keeps m r x.2) (Ram.Keeps.refl m r) fun _ _ hi hx =>
    hx.trans (Ram.Keeps.putLe32 _ (by omega) _)

/-- The decode loop after `t` of `n` words: the accumulator, the words recovered, the bytes left (R155). -/
theorem obfDecLoop_spec (off n : Nat) (seed : Word) (r : Ram) (t : Nat) (ht : t ≤ n) :
    let x := forRange t (fun t x => obfDecStep off (n - t) x) (seed, r)
    x.1 = decAcc r off n seed t ∧
    (∀ j, n - t < j → j ≤ n → x.2.le32 (off + 4 * j) = r.le32 (off + 4 * j) ^^^ decAcc r off n seed (n - j)) ∧
    (∀ a, a < off + 4 * (n - t + 1) ∨ off + 4 * (n + 1) ≤ a → x.2.byte a = r.byte a) := by
  induction t with
  | zero => exact ⟨rfl, fun _ h1 h2 => absurd h2 (by omega), fun _ _ => rfl⟩
  | succ t ih =>
    obtain ⟨i1, i2, i3⟩ := ih (by omega)
    simp only [forRange_succ]
    generalize forRange t (fun t x => obfDecStep off (n - t) x) (seed, r) = y at i1 i2 i3
    have hw : y.2.le32 (off + 4 * (n - t)) = r.le32 (off + 4 * (n - t)) :=
      Ram.le32_congr fun b h1 _ => i3 b (by omega)
    simp only [obfDecStep, hw, i1]
    refine ⟨rfl, fun j h1 h2 => ?_, fun a ha => ?_⟩
    · by_cases hj : j = n - t
      · subst hj
        have : n - (n - t) = t := by omega
        simp [this]
      · rw [Ram.le32_putLe32_disjoint _ _ (by omega), i2 j (by omega) h2]
    · rw [Ram.byte_putLe32, if_neg (by omega), i3 a (by omega)]

theorem obfDecLoop_keeps (off n m : Nat) (seed : Word) (r : Ram) (h : off + 4 * (n + 1) ≤ m) :
    Ram.Keeps m r (obfDecLoop off n seed r).2 :=
  forRange_induct (P := fun _ (x : Word × Ram) => Ram.Keeps m r x.2) (Ram.Keeps.refl m r) fun _ _ hi hx =>
    hx.trans (Ram.Keeps.putLe32 _ (by omega) _)

/-! ## Descrambler steps -/

/-- A XOR of one byte range into a disjoint one (43_descrambler.md R172 steps 1 to 3). -/
theorem xorRange_byte (off dst src n : Nat) (r : Ram) (h : dst + n ≤ src ∨ src + n ≤ dst) (a : Nat) :
    (xorRange off dst src n r).byte a =
      if off + dst ≤ a ∧ a < off + dst + n then r.byte a ^^^ r.byte (a - dst + src) else r.byte a := by
  induction n generalizing a with
  | zero => rw [if_neg (by omega)]; rfl
  | succ n ih =>
    have e : xorRange off dst src (n + 1) r = (xorRange off dst src n r).put (off + dst + n)
        ((xorRange off dst src n r).byte (off + dst + n) ^^^ (xorRange off dst src n r).byte (off + src + n)) := rfl
    have hd : (xorRange off dst src n r).byte (off + dst + n) = r.byte (off + dst + n) := by
      rw [ih (by omega), if_neg (by omega)]
    have hs : (xorRange off dst src n r).byte (off + src + n) = r.byte (off + src + n) := by
      rw [ih (by omega), if_neg (by omega)]
    rw [e, Ram.byte_put, hd, hs, ih (by omega)]
    by_cases ha : a = off + dst + n
    · subst ha
      have : off + dst + n - dst + src = off + src + n := by omega
      rw [if_pos rfl, if_pos (by omega), this]
    · rw [if_neg ha]
      by_cases hb : off + dst ≤ a ∧ a < off + dst + n
      · rw [if_pos hb, if_pos (by omega)]
      · rw [if_neg hb, if_neg (by omega)]

theorem xorRange_keeps (off dst src n m : Nat) (r : Ram) (h : off + dst + n ≤ m) :
    Ram.Keeps m r (xorRange off dst src n r) :=
  Ram.Keeps.forRange r fun _ q hi => Ram.Keeps.put q (by omega) _

/-- The exchange of two disjoint byte ranges (R172 step 4). -/
theorem swapRange_byte (off x y n : Nat) (r : Ram) (h : x + n ≤ y) (a : Nat) :
    (swapRange off x y n r).byte a =
      if off + x ≤ a ∧ a < off + x + n then r.byte (a - x + y)
      else if off + y ≤ a ∧ a < off + y + n then r.byte (a - y + x)
      else r.byte a := by
  induction n generalizing a with
  | zero => rw [if_neg (by omega), if_neg (by omega)]; rfl
  | succ n ih =>
    have e : swapRange off x y (n + 1) r =
        ((swapRange off x y n r).put (off + x + n) ((swapRange off x y n r).byte (off + y + n))).put (off + y + n)
          ((swapRange off x y n r).byte (off + x + n)) := rfl
    have hx : (swapRange off x y n r).byte (off + x + n) = r.byte (off + x + n) := by
      rw [ih (by omega), if_neg (by omega), if_neg (by omega)]
    have hy : (swapRange off x y n r).byte (off + y + n) = r.byte (off + y + n) := by
      rw [ih (by omega), if_neg (by omega), if_neg (by omega)]
    rw [e, Ram.byte_put, Ram.byte_put, hx, hy, ih (by omega)]
    by_cases ha : a = off + y + n
    · subst ha
      have : off + y + n - y + x = off + x + n := by omega
      rw [if_pos rfl, if_neg (by omega), if_pos (by omega), this]
    · rw [if_neg ha]
      by_cases hb : a = off + x + n
      · subst hb
        have : off + x + n - x + y = off + y + n := by omega
        rw [if_pos rfl, if_pos (by omega), this]
      · rw [if_neg hb]
        by_cases h1 : off + x ≤ a ∧ a < off + x + n
        · rw [if_pos h1, if_pos (by omega)]
        · rw [if_neg h1, if_neg (by omega : ¬(off + x ≤ a ∧ a < off + x + (n + 1)))]
          by_cases h2 : off + y ≤ a ∧ a < off + y + n
          · rw [if_pos h2, if_pos (by omega)]
          · rw [if_neg h2, if_neg (by omega)]

theorem swapRange_keeps (off x y n m : Nat) (r : Ram) (hx : off + x + n ≤ m) (hy : off + y + n ≤ m) :
    Ram.Keeps m r (swapRange off x y n r) :=
  Ram.Keeps.forRange r fun _ q hi => (Ram.Keeps.put q (by omega) _).trans (Ram.Keeps.put _ (by omega) _)

theorem descramble_keeps (off m : Nat) (r : Ram) (h : off + 128 ≤ m) : Ram.Keeps m r (descramble off r) :=
  (((xorRange_keeps off 64 0 64 m r (by omega)).trans (xorRange_keeps off 13 52 4 m _ (by omega))).trans
    (xorRange_keeps off 0 64 64 m _ (by omega))).trans (swapRange_keeps off 0 77 4 m _ (by omega) (by omega))

/-- The four in-place loops leave every byte outside the 128 as it is. -/
theorem descramble_outside (off : Nat) (r : Ram) {a : Nat} (h : a < off ∨ off + 128 ≤ a) :
    (descramble off r).byte a = r.byte a := by
  unfold descramble
  rw [swapRange_byte _ _ _ _ _ (by omega), if_neg (by omega), if_neg (by omega), xorRange_byte _ _ _ _ _ (by omega),
    if_neg (by omega), xorRange_byte _ _ _ _ _ (by omega), if_neg (by omega), xorRange_byte _ _ _ _ _ (by omega),
    if_neg (by omega)]

/-- The four in-place loops compute the descrambled buffer. -/
theorem descramble_inside (off : Nat) (r : Ram) {i : Nat} (hi : i < 128) :
    (descramble off r).byte (off + i) = descrambled (fun j => r.byte (off + j)) i := by
  have s1 : ∀ j, (xorRange off 64 0 64 r).byte (off + j) = descStep1 (fun j => r.byte (off + j)) j := fun j => by
    rw [xorRange_byte _ _ _ _ _ (by omega)]
    unfold descStep1
    by_cases h : 64 ≤ j ∧ j < 128
    · have : off + j - 64 + 0 = off + (j - 64) := by omega
      rw [if_pos (by omega), if_pos h, this]
    · rw [if_neg (by omega), if_neg h]
  unfold descramble
  generalize xorRange off 64 0 64 r = r1 at s1
  have s2 : ∀ j, (xorRange off 13 52 4 r1).byte (off + j) = descStep2 (descStep1 fun j => r.byte (off + j)) j :=
    fun j => by
      rw [xorRange_byte _ _ _ _ _ (by omega)]
      unfold descStep2
      by_cases h : 13 ≤ j ∧ j < 17
      · have : off + j - 13 + 52 = off + (j + 39) := by omega
        rw [if_pos (by omega), if_pos h, this, s1, s1]
      · rw [if_neg (by omega), if_neg h, s1]
  generalize xorRange off 13 52 4 r1 = r2 at s2
  have s3 : ∀ j, (xorRange off 0 64 64 r2).byte (off + j) =
      descStep3 (descStep2 (descStep1 fun j => r.byte (off + j))) j := fun j => by
    rw [xorRange_byte _ _ _ _ _ (by omega)]
    unfold descStep3
    by_cases h : j < 64
    · have : off + j - 0 + 64 = off + (j + 64) := by omega
      rw [if_pos (by omega), if_pos h, this, s2, s2]
    · rw [if_neg (by omega), if_neg h, s2]
  generalize xorRange off 0 64 64 r2 = r3 at s3
  rw [swapRange_byte _ _ _ _ _ (by omega)]
  unfold descrambled descStep4
  by_cases h : i < 4
  · have : off + i - 0 + 77 = off + (i + 77) := by omega
    rw [if_pos (by omega), if_pos h, this, s3]
  · rw [if_neg (by omega), if_neg h]
    by_cases h2 : 77 ≤ i ∧ i < 81
    · have : off + i - 77 + 0 = off + (i - 77) := by omega
      rw [if_pos (by omega), if_pos h2, this, s3]
    · rw [if_neg (by omega), if_neg h2, s3]

end Sys2Proof.Machine
end

