-- ==== Sys2Proof/Laws/Decode.lean ====
section
/-! SUPPORT. Decode: what the OP and SLOT fields decide, and a word from its fields. -/

namespace Sys2Proof

/-- Words with equal fields are equal: the four fields cover the word. -/
theorem word_ext {v w : Word} (h0 : opField v = opField w) (h1 : r0Field v = r0Field w)
    (h2 : slotField v = slotField w) (h3 : r1Field v = r1Field w) : v = w := by
  simp only [opField, r0Field, slotField, r1Field] at h0 h1 h2 h3
  apply BitVec.eq_of_getLsbD_eq
  intro i hi
  by_cases a : i < 4
  · simpa [a] using congrArg (·.getLsbD i) h0
  · by_cases b : i < 8
    · have := congrArg (·.getLsbD (i - 4)) h1
      simp only [BitVec.getLsbD_extractLsb',
        show i - 4 < 4 by omega, decide_true, Bool.true_and, show 4 + (i - 4) = i by omega] at this
      exact this
    · by_cases c : i < 12
      · have := congrArg (·.getLsbD (i - 8)) h2
        simp only [BitVec.getLsbD_extractLsb',
        show i - 8 < 4 by omega, decide_true, Bool.true_and, show 8 + (i - 8) = i by omega] at this
        exact this
      · have := congrArg (·.getLsbD (i - 12)) h3
        simp only [BitVec.getLsbD_extractLsb',
        show i - 12 < 20 by omega, decide_true, Bool.true_and, show 12 + (i - 12) = i by omega] at this
        exact this

/-- What an accepted OP and SLOT decode to (30_encoding.md R84). -/
theorem decodeOp_ok {op slot : BitVec 4} {i : Instr} (h : decodeOp op slot = .ok i) :
    i.op = op ∧ i.slot?.getD 0 = slot ∧ i.slot? = if op.toNat ≤ 5 then some slot else none := by
  have key : ∀ o sl : BitVec 4, (match decodeOp o sl with
      | .ok i => decide (i.op = o ∧ i.slot?.getD 0 = sl ∧ i.slot? = if o.toNat ≤ 5 then some sl else none)
      | .error _ => true) = true := by decide +kernel
  have := key op slot
  rw [h] at this
  exact of_decide_eq_true this

/-- Which OP and SLOT are accepted (R85 conditions 2 and 4). -/
theorem decodeOp_isOk (op slot : BitVec 4) :
    (∃ i, decodeOp op slot = .ok i) ↔ (1 ≤ op.toNat ∧ op.toNat ≤ 10) ∧ (6 ≤ op.toNat → slot = 0) := by
  have key : ∀ o sl : BitVec 4, (match decodeOp o sl with | .ok _ => true | .error _ => false) = true ↔
      (1 ≤ o.toNat ∧ o.toNat ≤ 10) ∧ (6 ≤ o.toNat → sl = 0) := by decide +kernel
  rw [← key op slot]
  cases decodeOp op slot <;> simp

/-- What a decoded row says of its word. -/
theorem decodeRow_ok {v : Word} {i : Instr} (h : decodeRow v = .ok i) :
    r0Field v = 0 ∧ r1Field v = 0 ∧ decodeOp (opField v) (slotField v) = .ok i := by
  unfold decodeRow at h
  split at h
  · rename_i hv
    exact ⟨hv.1, hv.2, h⟩
  · cases h

/-- Decode is the row and the NUM_SESSIONS condition (R85). -/
theorem decode_ok {n : Nat} {v : Word} {i : Instr} : decode n v = .ok i ↔ decodeRow v = .ok i ∧ i.wf n = true := by
  unfold decode
  cases h : decodeRow v with
  | ok j =>
    by_cases hw : j.wf n = true
    · simp only [hw, if_true, Except.ok.injEq]
      constructor
      · rintro rfl
        exact ⟨rfl, hw⟩
      · exact fun h => h.1
    · simp only [hw, Bool.false_eq_true, if_false, reduceCtorEq, Except.ok.injEq, false_iff, not_and]
      rintro rfl
      exact hw
  | error e => simp

/-- The fields of an encoded command. -/
theorem encode_fields (i : Instr) : r1Field (encode i) = 0 ∧ r0Field (encode i) = 0 ∧ opField (encode i) = i.op ∧
    slotField (encode i) = i.slot?.getD 0 := by
  have key : ∀ sl op : BitVec 4, r1Field ((0 : BitVec 20) ++ sl ++ (0 : BitVec 4) ++ op) = 0 ∧
      r0Field ((0 : BitVec 20) ++ sl ++ (0 : BitVec 4) ++ op) = 0 ∧
      opField ((0 : BitVec 20) ++ sl ++ (0 : BitVec 4) ++ op) = op ∧
      slotField ((0 : BitVec 20) ++ sl ++ (0 : BitVec 4) ++ op) = sl := by decide
  exact key _ _

/-- A command's OP and SLOT decode to it. -/
theorem decodeOp_op (i : Instr) : decodeOp i.op (i.slot?.getD 0) = .ok i := by
  cases i <;> rfl

end Sys2Proof
end

