-- ==== Sys2Proof/Laws/Exec.lean ====
section
/-! SUPPORT. What a command can do, said once: the one inversion lemma of exec, and of completion. -/

namespace Sys2Proof.Machine

/-- What every completed command looks like: the record of 60_exceptions.md R201 on a state whose slot file and RAM alone
may differ, and those only after OK. -/
structure Completed (i : Instr) (s t : State) : Prop where
  shape : t = { s with busy := false, done := true, ckOk := t.ckOk, result := t.result, slots := t.slots, ram := t.ram }
  onError : t.result ≠ .ok → t.ckOk = false ∧ t.slots = s.slots ∧ t.ram = s.ram
  ckOk : t.ckOk = true → i = .ckVerify ∧ t.result = .ok
  slots : t.slots = s.slots ∨ ∃ slot x, i.slot? = some slot ∧ t.slots = s.slots.set slot.toNat x ∧
    (x.valid = true → (s.slotAt slot).valid = false ∧
      (x.key = s.cfg.fallbackKey ∨ (1 ≤ x.key.length ∧ x.key.length ≤ s.cfg.keyMaxBytes))) ∧
    (x.valid = false → i = .sessClose slot)
  ram : Ram.Keeps s.cfg.dataBytes s.ram t.ram

theorem Completed.raise {i : Instr} {s : State} {code : Result} :
    Completed i s (s.complete code false) where
  shape := rfl
  onError _ := ⟨rfl, rfl, rfl⟩
  ckOk hc := by simp at hc
  slots := .inl rfl
  ram := Ram.Keeps.refl _ _

theorem Completed.ofRam {i : Instr} {s : State} {r : Ram} (h : Ram.Keeps s.cfg.dataBytes s.ram r) :
    Completed i s (State.complete { s with ram := r } .ok false) where
  shape := rfl
  onError hc := absurd rfl hc
  ckOk hc := by simp at hc
  slots := .inl rfl
  ram := h

theorem Completed.ofSlot {i : Instr} {s : State} {slot : BitVec 4} {x : Slot} (hi : i.slot? = some slot)
    (hv : x.valid = true → (s.slotAt slot).valid = false ∧
      (x.key = s.cfg.fallbackKey ∨ (1 ≤ x.key.length ∧ x.key.length ≤ s.cfg.keyMaxBytes)))
    (hc : x.valid = false → i = .sessClose slot) :
    Completed i s ((s.setSlot slot x).complete .ok false) where
  shape := rfl
  onError hc := absurd rfl hc
  ckOk hc := by simp at hc
  slots := .inr ⟨slot, x, hi, rfl, hv, hc⟩
  ram := Ram.Keeps.refl _ _

/-- A window that fits, from the failed range check. -/
theorem fits_of_not {s : State} (h : ¬ s.windowFits = false) : s.off + s.len ≤ s.cfg.dataBytes :=
  s.windowFits_eq_true.1 (by simpa using h)

/-- Every command answers a next state, which is a completed one (60_exceptions.md R201, R202). -/
theorem exec_completed (i : Instr) (s : State) : ∃ t, exec i s = .next t ∧ Completed i s t := by
  cases i with
  | sessInitk slot =>
    simp only [exec, execSessInitk]
    split
    · exact ⟨_, rfl, .raise⟩
    · split
      · exact ⟨_, rfl, .raise⟩
      · split
        · exact ⟨_, rfl, .raise⟩
        · rename_i h1 h2 h3
          refine ⟨_, rfl, .ofSlot rfl (fun _ => ⟨by simpa using h2, .inr ?_⟩) (fun h => by cases h)⟩
          rw [State.keyLenOk_eq_false] at h3
          simp only [Ram.read_length]
          omega
  | sessInitf slot =>
    simp only [exec, execSessInitf]
    split
    · exact ⟨_, rfl, .raise⟩
    · rename_i h
      exact ⟨_, rfl, .ofSlot rfl (fun _ => ⟨by simpa using h, .inl rfl⟩) (fun h => by cases h)⟩
  | sessClose slot => exact ⟨_, rfl, .ofSlot rfl (fun h => by cases h) (fun _ => rfl)⟩
  | bcEnc slot =>
    simp only [exec, execBcEnc]
    split
    · exact ⟨_, rfl, .raise⟩
    · rename_i hf
      split
      · exact ⟨_, rfl, .raise⟩
      · have := blockCount_le s.len
        have := fits_of_not hf
        exact ⟨_, rfl, .ofRam (mapBlocks_keeps _ _ _ _ _ (by omega))⟩
  | bcDec slot =>
    simp only [exec, execBcDec]
    split
    · exact ⟨_, rfl, .raise⟩
    · rename_i hf
      split
      · exact ⟨_, rfl, .raise⟩
      · have := blockCount_le s.len
        have := fits_of_not hf
        exact ⟨_, rfl, .ofRam (mapBlocks_keeps _ _ _ _ _ (by omega))⟩
  | ckVerify =>
    simp only [exec, execCkVerify]
    split
    · exact ⟨_, rfl, .raise⟩
    · split
      · exact ⟨_, rfl, .raise⟩
      · exact ⟨_, rfl, rfl, fun h => absurd rfl h, fun _ => ⟨rfl, rfl⟩, .inl rfl, Ram.Keeps.refl _ _⟩
  | ckAppend =>
    simp only [exec, execCkAppend]
    split
    · exact ⟨_, rfl, .raise⟩
    · rename_i hf
      split
      · exact ⟨_, rfl, .raise⟩
      · rename_i hs
        have := fits_of_not hf
        rw [checksumSizeOk_eq_false] at hs
        exact ⟨_, rfl, .ofRam (Ram.Keeps.putLe32 _ (by omega) _)⟩
  | obfEnc =>
    simp only [exec, execObfEnc]
    split
    · exact ⟨_, rfl, .raise⟩
    · rename_i hf
      split
      · exact ⟨_, rfl, .raise⟩
      · rename_i hs
        have := fits_of_not hf
        rw [obfSizeOk_eq_false, not_lt] at hs
        have := obfWords_grid hs
        exact ⟨_, rfl, .ofRam ((obfEncLoop_keeps _ _ _ _ _ (by omega)).trans (Ram.Keeps.putLe32 _ (by omega) _))⟩
  | obfDec =>
    simp only [exec, execObfDec]
    split
    · exact ⟨_, rfl, .raise⟩
    · rename_i hf
      split
      · exact ⟨_, rfl, .raise⟩
      · rename_i hs
        have := fits_of_not hf
        rw [obfSizeOk_eq_false, not_lt] at hs
        have := obfWords_grid hs
        exact ⟨_, rfl, .ofRam (obfDecLoop_keeps _ _ _ _ _ (by omega))⟩
  | modDesc =>
    simp only [exec, execModDesc]
    split
    · exact ⟨_, rfl, .raise⟩
    · rename_i hf
      split
      · exact ⟨_, rfl, .raise⟩
      · rename_i hs
        have := fits_of_not hf
        rw [modSizeOk_eq_false] at hs
        exact ⟨_, rfl, .ofRam (descramble_keeps _ _ _ (by omega))⟩

/-- A completed command, from exec's answer. -/
theorem completed_of_exec {i : Instr} {s t : State} (h : exec i s = .next t) : Completed i s t := by
  obtain ⟨u, hu, hc⟩ := exec_completed i s
  rw [hu] at h
  cases h
  exact hc

/-- What the completion step can do: a decoded command's exec, or ERR_BAD_CMD (60_exceptions.md R201). -/
theorem completion_cases (s : State) :
    (∃ i, decode s.slots.length s.cmd = .ok i ∧ completion s = exec i s) ∨
    ((∀ i, decode s.slots.length s.cmd ≠ .ok i) ∧ completion s = .next (s.complete .errBadCmd false)) := by
  have e : completion s = match decode s.slots.length s.cmd with
      | .ok i => exec i s
      | .error _ => s.raise .errBadCmd := rfl
  cases h : decode s.slots.length s.cmd with
  | ok i => exact .inl ⟨i, rfl, by rw [e, h]⟩
  | error r => exact .inr ⟨fun i hi => (nomatch hi), by rw [e, h]; rfl⟩

theorem completion_decoded {s : State} {i : Instr} (h : decode s.slots.length s.cmd = .ok i) :
    completion s = exec i s := by
  rcases completion_cases s with ⟨j, hj, e⟩ | ⟨hn, _⟩
  · rw [h] at hj
    cases hj
    exact e
  · exact absurd h (hn i)

theorem completion_rejected {s : State} (h : ∀ i, decode s.slots.length s.cmd ≠ .ok i) :
    completion s = .next (s.complete .errBadCmd false) := by
  rcases completion_cases s with ⟨i, hi, _⟩ | ⟨_, e⟩
  · exact absurd hi (h i)
  · exact e

end Sys2Proof.Machine
end

