-- ==== Sys2Proof/Laws/HostPort.lean ====
section
/-! SUPPORT. What a host bus access can do, said once. -/

namespace Sys2Proof.Machine

/-- A 32-bit access to a register of the map is routed to it (20_memory.md R64). -/
theorem route_reg {off : Nat} {r : Reg} (n : Nat) (h : regAt off = some r) : route n 32 off = .ok (.reg r) := by
  have hlt : off < 0x1C := by
    unfold regAt at h
    split at h <;> first | omega | cases h
  simp [route, routeReg, hlt, h]

/-- An 8-bit access inside the DATA window. -/
theorem route_ramByte {n a : Nat} (h : a < n) : route n 8 (0x1000 + a) = .ok (.ramByte a) := by
  unfold route routeRam Config.ramBase
  rw [if_neg (by omega), if_neg (by omega), if_pos (by omega), if_pos rfl, Nat.add_sub_cancel_left]

/-- An aligned 32-bit access inside the DATA window. -/
theorem route_ramWord {n a : Nat} (h4 : a % 4 = 0) (h : a + 4 ≤ n) : route n 32 (0x1000 + a) = .ok (.ramWord a) := by
  unfold route routeRam Config.ramBase
  rw [if_neg (by omega), if_neg (by omega), if_pos (by omega), if_neg (by omega), if_neg (by omega),
    Nat.add_sub_cancel_left, if_neg (by omega), if_pos (by omega)]

/-- A routed target lies inside the DATA RAM. -/
def Target.inside (n : Nat) : Target → Prop
  | .reg _ => True
  | .ramByte a => a < n
  | .ramWord a => a + 4 ≤ n

theorem route_inside {n bits off : Nat} {t : Target} (h : route n bits off = .ok t) : t.inside n := by
  unfold route at h
  split at h
  · unfold routeReg at h
    split at h
    · cases h
    · split at h
      · cases h
        trivial
      · cases h
  · split at h
    · cases h
    · split at h
      · unfold routeRam at h
        split at h
        · cases h
          simp only [Target.inside, Config.ramBase] at *
          omega
        · split at h
          · cases h
          · split at h
            · cases h
            · split at h
              · cases h
                simpa [Target.inside]
              · cases h
      · cases h

/-- What any bus access keeps and how it can move the lifecycle: not at all but for clearing DONE, or by an issue. -/
structure Ported (s t : State) : Prop where
  cfg : t.cfg = s.cfg
  slots : t.slots = s.slots
  host : t.host = s.host
  inbox : t.inbox = s.inbox
  ram : Ram.Keeps s.cfg.dataBytes s.ram t.ram
  whileBusy : s.busy = true → t.busy = true ∧ t.cmd = s.cmd ∧ t.offset = s.offset ∧ t.size = s.size ∧
    t.obfKey = s.obfKey ∧ t.ram = s.ram
  life : (t.busy = s.busy ∧ t.cmd = s.cmd ∧ t.result = s.result ∧ t.ckOk = s.ckOk ∧ (t.done = true → s.done = true)) ∨
    (s.busy = false ∧ t.busy = true ∧ t.done = false ∧ t.result = .ok ∧ t.ckOk = false)

/-- A change of the model's own fields and of HAZ only. -/
theorem Ported.aside {s t : State}
    (h : t = { s with haz := t.haz, draws := t.draws, rdata := t.rdata, hostFault := t.hostFault }) : Ported s t := by
  rw [h]
  exact ⟨rfl, rfl, rfl, rfl, Ram.Keeps.refl _ _, fun hb => ⟨hb, rfl, rfl, rfl, rfl, rfl⟩, .inl ⟨rfl, rfl, rfl, rfl, id⟩⟩

theorem ported_readTarget (s : State) (t : Target) : Ported s (s.readTarget t) := by
  cases t with
  | reg r => exact .aside rfl
  | ramByte a =>
    simp only [State.readTarget]
    split <;> exact .aside rfl
  | ramWord a =>
    simp only [State.readTarget]
    split <;> exact .aside rfl

theorem ported_writeReg (s : State) (r : Reg) (v : Word) : Ported s (s.writeReg r v) := by
  have side : Ported s s.setHaz := .aside rfl
  cases r with
  | ctrl =>
    exact ⟨rfl, rfl, rfl, rfl, Ram.Keeps.refl _ _, fun hb => ⟨hb, rfl, rfl, rfl, rfl, rfl⟩,
      .inl ⟨rfl, rfl, rfl, rfl, id⟩⟩
  | status =>
    simp only [State.writeReg]
    refine ⟨by simp, by simp, by simp, by simp, ?_, fun hb => by simp [hb], .inl ?_⟩
    · simpa using Ram.Keeps.refl _ _
    · simp only [State.writeStatus_busy, State.writeStatus_cmd, State.writeStatus_result, State.writeStatus_ckOk,
        State.writeStatus_done, Bool.and_eq_true, true_and]
      exact fun h => h.1
  | cmd =>
    simp only [State.writeReg]
    split
    · exact side
    · rename_i hb
      exact ⟨rfl, rfl, rfl, rfl, Ram.Keeps.refl _ _, fun h => absurd h hb,
        .inr ⟨by simpa using hb, rfl, rfl, rfl, rfl⟩⟩
  | offset =>
    simp only [State.writeReg]
    split
    · exact side
    · rename_i hb
      exact ⟨rfl, rfl, rfl, rfl, Ram.Keeps.refl _ _, fun h => absurd h hb, .inl ⟨rfl, rfl, rfl, rfl, id⟩⟩
  | size =>
    simp only [State.writeReg]
    split
    · exact side
    · rename_i hb
      exact ⟨rfl, rfl, rfl, rfl, Ram.Keeps.refl _ _, fun h => absurd h hb, .inl ⟨rfl, rfl, rfl, rfl, id⟩⟩
  | obfKey =>
    simp only [State.writeReg]
    split
    · exact side
    · rename_i hb
      exact ⟨rfl, rfl, rfl, rfl, Ram.Keeps.refl _ _, fun h => absurd h hb, .inl ⟨rfl, rfl, rfl, rfl, id⟩⟩
  | sessValid => exact .aside rfl

theorem ported_writeTarget (s : State) (t : Target) (v : Word) (ht : t.inside s.cfg.dataBytes) :
    Ported s (s.writeTarget t v) := by
  have side : Ported s s.setHaz := .aside rfl
  cases t with
  | reg r => exact ported_writeReg s r v
  | ramByte a =>
    simp only [State.writeTarget]
    split
    · exact side
    · rename_i hb
      exact ⟨rfl, rfl, rfl, rfl, Ram.Keeps.put _ ht _, fun h => absurd h hb, .inl ⟨rfl, rfl, rfl, rfl, id⟩⟩
  | ramWord a =>
    simp only [State.writeTarget]
    split
    · exact side
    · rename_i hb
      exact ⟨rfl, rfl, rfl, rfl, Ram.Keeps.putLe32 _ ht _, fun h => absurd h hb, .inl ⟨rfl, rfl, rfl, rfl, id⟩⟩

/-- What any host access can do. -/
theorem ported_hostAccess (a : Access) (s : State) : Ported s (hostAccess a s) := by
  cases a with
  | read bits off =>
    simp only [hostAccess]
    split
    · exact ported_readTarget s _
    · exact .aside rfl
  | write bits off v =>
    simp only [hostAccess]
    split
    · rename_i t h
      exact ported_writeTarget s t v (route_inside h)
    · exact .aside rfl

/-! ## Accepted accesses, one lemma per kind -/

theorem hostAccess_readReg {s : State} {off : Nat} {r : Reg} (h : regAt off = some r) :
    hostAccess (.read 32 off) s = { s with rdata := s.readReg r } := by
  simp only [hostAccess, route_reg s.cfg.dataBytes h]
  rfl

theorem hostAccess_writeReg {s : State} {off : Nat} {r : Reg} {v : Word} (h : regAt off = some r) :
    hostAccess (.write 32 off v) s = s.writeReg r v := by
  simp only [hostAccess, route_reg s.cfg.dataBytes h]
  rfl

theorem hostAccess_read8 {s : State} {a : Nat} (h : a < s.cfg.dataBytes) :
    hostAccess (.read 8 (0x1000 + a)) s = s.readTarget (.ramByte a) := by
  simp only [hostAccess, route_ramByte h]

theorem hostAccess_read32 {s : State} {a : Nat} (h4 : a % 4 = 0) (h : a + 4 ≤ s.cfg.dataBytes) :
    hostAccess (.read 32 (0x1000 + a)) s = s.readTarget (.ramWord a) := by
  simp only [hostAccess, route_ramWord h4 h]

theorem hostAccess_write8 {s : State} {a : Nat} {v : Word} (h : a < s.cfg.dataBytes) :
    hostAccess (.write 8 (0x1000 + a) v) s = s.writeTarget (.ramByte a) v := by
  simp only [hostAccess, route_ramByte h]

theorem hostAccess_write32 {s : State} {a : Nat} {v : Word} (h4 : a % 4 = 0) (h : a + 4 ≤ s.cfg.dataBytes) :
    hostAccess (.write 32 (0x1000 + a) v) s = s.writeTarget (.ramWord a) v := by
  simp only [hostAccess, route_ramWord h4 h]

/-- The write of STATUS as one record update (10_state.md R24). -/
theorem State.writeStatus_eq (s : State) (v : Word) :
    s.writeStatus v = { s with done := s.done && !v.getLsbD 1, haz := s.haz && !v.getLsbD 3 } := by
  unfold State.writeStatus State.clearHaz State.acknowledge
  cases v.getLsbD 1 <;> cases v.getLsbD 3 <;> simp

/-- The bits of the SESS_VALID word (R29). -/
theorem validBits_getLsbD (l : List Slot) (j : Nat) (hj : j < 32) :
    (validBits l).getLsbD j = (if h : j < l.length then l[j].valid else false) := by
  induction l generalizing j with
  | nil => simp [validBits]
  | cons x l ih =>
    simp only [validBits, BitVec.getLsbD_or, BitVec.getLsbD_shiftLeft]
    cases j with
    | zero => simp
    | succ j =>
      simp [ih j (by omega)]
      omega

/-- Only a 32-bit access to its offset is routed to a register. -/
theorem route_eq_reg {n bits off : Nat} {r : Reg} (h : route n bits off = .ok (.reg r)) : bits = 32 ∧ regAt off = some r := by
  unfold route at h
  split at h
  · unfold routeReg at h
    split at h
    · cases h
    · rename_i hb
      split at h
      · rename_i q hq
        cases h
        exact ⟨not_not.1 hb, hq⟩
      · cases h
  · split at h
    · cases h
    · split at h
      · unfold routeRam at h
        repeat' split at h
        all_goals cases h
      · cases h

theorem regAt_status {off : Nat} (h : regAt off = some .status) : off = 0x004 := by
  unfold regAt at h
  split at h <;> first | rfl | cases h

theorem regAt_cmd {off : Nat} (h : regAt off = some .cmd) : off = 0x008 := by
  unfold regAt at h
  split at h <;> first | rfl | cases h

/-- What an access does to CMD, DONE and HAZ: a STATUS write, an issue, or nothing but setting HAZ (10_state.md R24, R25). -/
theorem hostAccess_cases (a : Access) (s : State) :
    (∃ v, a = .write 32 0x004 v ∧ hostAccess a s = s.writeStatus v) ∨
    (∃ v, a = .write 32 0x008 v ∧ s.busy = false ∧ hostAccess a s = s.issue v) ∨
    ((hostAccess a s).cmd = s.cmd ∧ (hostAccess a s).done = s.done ∧ (s.haz = true → (hostAccess a s).haz = true) ∧
      ∀ v, a = .write 32 0x008 v → s.busy = true) := by
  cases a with
  | read bits off =>
    refine .inr (.inr ?_)
    simp only [hostAccess]
    split
    · rename_i t _
      cases t with
      | reg r => exact ⟨rfl, rfl, id, fun _ h => (nomatch h)⟩
      | ramByte a =>
        simp only [State.readTarget]
        split
        · exact ⟨rfl, rfl, fun _ => rfl, fun _ h => (nomatch h)⟩
        · exact ⟨rfl, rfl, id, fun _ h => (nomatch h)⟩
      | ramWord a =>
        simp only [State.readTarget]
        split
        · exact ⟨rfl, rfl, fun _ => rfl, fun _ h => (nomatch h)⟩
        · exact ⟨rfl, rfl, id, fun _ h => (nomatch h)⟩
    · exact ⟨rfl, rfl, id, fun _ h => (nomatch h)⟩
  | write bits off v =>
    have other : ∀ t, route s.cfg.dataBytes bits off = .ok t → t ≠ .reg .cmd →
        ∀ w, Access.write bits off v = .write 32 0x008 w → s.busy = true := fun t ht hne w hw => by
      cases hw
      rw [route_reg _ (show regAt 0x008 = some .cmd from rfl)] at ht
      cases ht
      exact absurd rfl hne
    simp only [hostAccess]
    cases hr : route s.cfg.dataBytes bits off with
    | error f =>
      refine .inr (.inr ⟨rfl, rfl, id, fun w hw => ?_⟩)
      cases hw
      rw [route_reg _ (show regAt 0x008 = some .cmd from rfl)] at hr
      cases hr
    | ok t =>
      have oth := other t hr
      cases t with
      | reg r =>
        cases r with
        | status =>
          obtain ⟨rfl, h⟩ := route_eq_reg hr
          obtain rfl := regAt_status h
          exact .inl ⟨v, rfl, rfl⟩
        | cmd =>
          obtain ⟨rfl, h⟩ := route_eq_reg hr
          obtain rfl := regAt_cmd h
          simp only [State.writeTarget, State.writeReg]
          split
          · rename_i hb
            exact .inr (.inr ⟨rfl, rfl, fun _ => rfl, fun _ _ => hb⟩)
          · rename_i hb
            exact .inr (.inl ⟨v, rfl, by simpa using hb, rfl⟩)
        | ctrl => exact .inr (.inr ⟨rfl, rfl, id, oth (by simp)⟩)
        | sessValid => exact .inr (.inr ⟨rfl, rfl, id, oth (by simp)⟩)
        | offset | size | obfKey =>
          refine .inr (.inr ?_)
          simp only [State.writeTarget, State.writeReg]
          split
          · exact ⟨rfl, rfl, fun _ => rfl, oth (by simp)⟩
          · exact ⟨rfl, rfl, id, oth (by simp)⟩
      | ramByte a | ramWord a =>
        refine .inr (.inr ?_)
        simp only [State.writeTarget]
        split
        · exact ⟨rfl, rfl, fun _ => rfl, oth (by simp)⟩
        · exact ⟨rfl, rfl, id, oth (by simp)⟩

/-- A recorded bus error outlives every access (20_memory.md R67). -/
theorem hostAccess_hostFault (a : Access) {s : State} {g : Fault} (h : s.hostFault = some g) :
    (hostAccess a s).hostFault = some g := by
  cases a with
  | read bits off =>
    simp only [hostAccess]
    split
    · rename_i t _
      cases t <;> simp only [State.readTarget] <;> first | exact h | (split <;> exact h)
    · simp [State.busError, State.drawRead, h]
  | write bits off v =>
    simp only [hostAccess]
    split
    · rename_i t _
      cases t with
      | reg r =>
        cases r <;> simp only [State.writeTarget, State.writeReg, State.writeStatus_eq] <;>
          first | exact h | (split <;> exact h)
      | ramByte a | ramWord a =>
        simp only [State.writeTarget]
        split <;> exact h
    · simp [State.busError, h]

end Sys2Proof.Machine
end

