-- ==== Sys2Proof/Laws/PerInstr.lean ====
section
/-! SUPPORT. The per-command family of LAWS.json: what every command's encoding is, one lemma per constructor. -/

namespace Sys2Proof.Laws

/-- The command word of `i` has OP 1 to 10, zero reserved fields R0 and R1, a zero SLOT field unless the command names a
slot, and needs slot operands exactly where its OP is 1 to 5 (30_encoding.md R80, R84, R85). -/
def EncodedForm.Statement (i : Instr) : Prop :=
  opField (encode i) = i.op ∧ r0Field (encode i) = 0 ∧ r1Field (encode i) = 0 ∧
  slotField (encode i) = i.slot?.getD 0 ∧ (1 ≤ i.op.toNat ∧ i.op.toNat ≤ 10) ∧
  (i.slot?.isSome = true ↔ i.op.toNat ≤ 5)

/-- The part of the form that does not depend on the word, beside `encode_fields`. -/
theorem EncodedForm.Statement.of {i : Instr} (h : 1 ≤ i.op.toNat ∧ i.op.toNat ≤ 10)
    (hs : i.slot?.isSome = decide (i.op.toNat ≤ 5)) : EncodedForm.Statement i := by
  obtain ⟨h1, h0, ho, hf⟩ := encode_fields i
  refine ⟨ho, h0, h1, hf, h, ?_⟩
  rw [hs, decide_eq_true_iff]

theorem EncodedForm.sessInitk (slot : BitVec 4) : EncodedForm.Statement (.sessInitk slot) :=
  .of ⟨of_decide_eq_true rfl, of_decide_eq_true rfl⟩ rfl

theorem EncodedForm.sessInitf (slot : BitVec 4) : EncodedForm.Statement (.sessInitf slot) :=
  .of ⟨of_decide_eq_true rfl, of_decide_eq_true rfl⟩ rfl

theorem EncodedForm.sessClose (slot : BitVec 4) : EncodedForm.Statement (.sessClose slot) :=
  .of ⟨of_decide_eq_true rfl, of_decide_eq_true rfl⟩ rfl

theorem EncodedForm.bcEnc (slot : BitVec 4) : EncodedForm.Statement (.bcEnc slot) :=
  .of ⟨of_decide_eq_true rfl, of_decide_eq_true rfl⟩ rfl

theorem EncodedForm.bcDec (slot : BitVec 4) : EncodedForm.Statement (.bcDec slot) :=
  .of ⟨of_decide_eq_true rfl, of_decide_eq_true rfl⟩ rfl

theorem EncodedForm.ckVerify : EncodedForm.Statement .ckVerify :=
  .of ⟨of_decide_eq_true rfl, of_decide_eq_true rfl⟩ rfl

theorem EncodedForm.ckAppend : EncodedForm.Statement .ckAppend :=
  .of ⟨of_decide_eq_true rfl, of_decide_eq_true rfl⟩ rfl

theorem EncodedForm.obfEnc : EncodedForm.Statement .obfEnc :=
  .of ⟨of_decide_eq_true rfl, of_decide_eq_true rfl⟩ rfl

theorem EncodedForm.obfDec : EncodedForm.Statement .obfDec :=
  .of ⟨of_decide_eq_true rfl, of_decide_eq_true rfl⟩ rfl

theorem EncodedForm.modDesc : EncodedForm.Statement .modDesc :=
  .of ⟨of_decide_eq_true rfl, of_decide_eq_true rfl⟩ rfl

end Sys2Proof.Laws
end

