-- ==== Sys2Proof/Laws/Step.lean ====
section
/-! SUPPORT. What a step can do, said once: the inversion lemmas of the host agent, of a move and of the step. A proof
about every step cites `step_next` and takes `Moved` apart. -/

namespace Sys2Proof.Machine

theorem Completed.slots_length {i : Instr} {s t : State} (c : Completed i s t) : t.slots.length = s.slots.length := by
  rcases c.slots with h | ⟨_, _, _, h, _⟩ <;> simp [h]

/-! ## The host agent -/

/-- The lines a program has (30_encoding.md R89). -/
theorem lineAt_iff (h : HostAgent) (n : Nat) : (∃ p, h.lineAt n = some p) ↔ 1 ≤ n ∧ n ≤ h.program.length := by
  cases n with
  | zero => simp [HostAgent.lineAt]
  | succ n =>
    simp only [HostAgent.lineAt]
    constructor
    · rintro ⟨p, hp⟩
      have := (List.getElem?_eq_some_iff.1 hp).1
      omega
    · rintro ⟨_, h2⟩
      exact ⟨_, List.getElem?_eq_getElem (by omega)⟩

theorem lineAt_mem {h : HostAgent} {n : Nat} {p : ProgramLine} (hp : h.lineAt n = some p) : p ∈ h.program := by
  cases n with
  | zero => cases hp
  | succ n => exact List.mem_of_getElem? hp

/-- A jump goes to its line or is refused. -/
theorem hostGoto_cases (n : Nat) (s : State) :
    (hostGoto n s = .refused (.hostTarget n) ∧ ¬(1 ≤ n ∧ n ≤ s.host.program.length)) ∨
    hostGoto n s = .next { s with host := { s.host with line := n, todo := [] } } := by
  unfold hostGoto
  cases h : s.host.lineAt n with
  | some p => right; rfl
  | none =>
    left
    refine ⟨rfl, fun hn => ?_⟩
    obtain ⟨p, hp⟩ := (lineAt_iff s.host n).2 hn
    rw [h] at hp
    cases hp

/-- The next line of an agent whose jumps go to its lines jumps to one, and so do those of the agent past it. -/
theorem fetch_cases {h g : HostAgent} {l : HostLine} (hf : h.fetch = some (l, g)) :
    g.program = h.program ∧ (h.targetsOk → g.targetsOk ∧ l.targetOk h.program.length = true) := by
  unfold HostAgent.fetch at hf
  split at hf
  · cases hf
  · split at hf
    · rename_i rest ht
      cases hf
      refine ⟨rfl, fun ok => ⟨⟨ok.1, fun k hk => ok.2 k ?_⟩, ok.2 l ?_⟩⟩
      · rw [ht]
        exact List.mem_cons_of_mem _ hk
      · rw [ht]
        exact List.mem_cons_self
    · split at hf
      · cases hf
      · rename_i p hp
        cases hf
        exact ⟨rfl, fun ok => ⟨⟨ok.1, fun k hk => ok.1 p (lineAt_mem hp) k (List.mem_cons_of_mem _ hk)⟩,
          ok.1 p (lineAt_mem hp) _ List.mem_cons_self⟩⟩

/-- The state after an access, if there is one. -/
def State.performed (s : State) : Option Access → State
  | some a => hostAccess a s
  | none => s

/-- What a host line does: its bus access, and a change of the host agent. -/
structure HostMoved (a : Option Access) (s t : State) : Prop where
  access : t = { s.performed a with host := t.host }
  program : t.host.program = s.host.program
  todo : ∀ l ∈ t.host.todo, l ∈ s.host.todo ∨ l = .poll

theorem HostMoved.refl (s : State) : HostMoved none s s := ⟨rfl, rfl, fun _ h => .inl h⟩

theorem HostMoved.ofAccess (a : Access) (s : State) : HostMoved (some a) s (hostAccess a s) :=
  have p := ported_hostAccess a s
  ⟨rfl, by rw [p.host], by rw [p.host]; exact fun l h => .inl h⟩

theorem HostMoved.ofRead (x : Var) (off : Nat) (s : State) : HostMoved (some (.read 32 off)) s (hostRead x off s) := by
  have p := ported_hostAccess (.read 32 off) s
  refine ⟨rfl, ?_, ?_⟩
  · simp [hostRead, HostAgent.setVar, p.host]
  · simp only [hostRead, HostAgent.setVar, p.host]
    exact fun l h => .inl h

/-- What one line of a host program can do. -/
theorem runHostLine_cases (l : HostLine) (s : State) :
    (∃ t, runHostLine l s = .next t ∧ HostMoved l.access s t) ∨
    (∃ n, runHostLine l s = .refused (.hostTarget n) ∧ l.targetOk s.host.program.length = false) := by
  have goto : ∀ n, (∃ t, hostGoto n s = .next t ∧ HostMoved none s t) ∨
      (∃ m, hostGoto n s = .refused (.hostTarget m) ∧
        decide (1 ≤ n ∧ n ≤ s.host.program.length) = false) := fun n => by
    rcases hostGoto_cases n s with ⟨h, h2⟩ | h
    · exact .inr ⟨n, h, decide_eq_false h2⟩
    · exact .inl ⟨_, h, rfl, rfl, by simp⟩
  cases l with
  | w32 off v => exact .inl ⟨_, rfl, .ofAccess _ _⟩
  | w8 off v => exact .inl ⟨_, rfl, .ofAccess _ _⟩
  | r32 x off => exact .inl ⟨_, rfl, .ofRead x off s⟩
  | issue i => exact .inl ⟨_, rfl, .ofAccess _ _⟩
  | poll =>
    refine .inl ⟨_, rfl, ?_⟩
    have h := HostMoved.ofRead varT 4 s
    unfold hostPoll
    dsimp only
    split
    · refine ⟨by rw [h.access]; rfl, h.program, ?_⟩
      simp only [List.mem_cons]
      rintro l (rfl | hl)
      · exact .inr rfl
      · exact h.todo l hl
    · exact h
  | ifSet x m n =>
    simp only [runHostLine, HostLine.targetOk]
    split
    · exact goto n
    · exact .inl ⟨_, rfl, .refl s⟩
  | ifClear x m n =>
    simp only [runHostLine, HostLine.targetOk]
    split
    · exact goto n
    · exact .inl ⟨_, rfl, .refl s⟩
  | goto n => exact goto n
  | halt => exact .inl ⟨_, rfl, rfl, rfl, fun l h => .inl h⟩

/-- A bus access neither reads nor writes the host agent and the list of moves. -/
theorem hostAccess_beside (a : Access) (s : State) (h : HostAgent) (moves : List Event) :
    hostAccess a { s with host := h, inbox := moves } = { hostAccess a s with host := h, inbox := moves } := by
  cases a with
  | read bits off =>
    simp only [hostAccess]
    cases route s.cfg.dataBytes bits off with
    | error f => rfl
    | ok t =>
      cases t with
      | reg r => cases r <;> rfl
      | ramByte a => simp only [State.readTarget]; split <;> rfl
      | ramWord a => simp only [State.readTarget]; split <;> rfl
  | write bits off v =>
    simp only [hostAccess]
    cases route s.cfg.dataBytes bits off with
    | error f => rfl
    | ok t =>
      cases t with
      | reg r =>
        cases r with
        | ctrl => rfl
        | status => simp only [State.writeTarget, State.writeReg, State.writeStatus_eq]
        | sessValid => rfl
        | cmd => simp only [State.writeTarget, State.writeReg]; split <;> rfl
        | offset => simp only [State.writeTarget, State.writeReg]; split <;> rfl
        | size => simp only [State.writeTarget, State.writeReg]; split <;> rfl
        | obfKey => simp only [State.writeTarget, State.writeReg]; split <;> rfl
      | ramByte a => simp only [State.writeTarget]; split <;> rfl
      | ramWord a => simp only [State.writeTarget]; split <;> rfl

theorem hostAccess_withHost (a : Access) (s : State) (h : HostAgent) :
    hostAccess a { s with host := h } = { hostAccess a s with host := h } := by
  refine (hostAccess_beside a s h s.inbox).trans ?_
  rw [(ported_hostAccess a s).inbox.symm]

theorem hostAccess_withInbox (a : Access) (s : State) (moves : List Event) :
    hostAccess a { s with inbox := moves } = { hostAccess a s with inbox := moves } := by
  refine (hostAccess_beside a s s.host moves).trans ?_
  rw [(ported_hostAccess a s).host.symm]

/-- What the host agent's turn can do: the access of its next line and a change of the agent; it is refused only for a
jump to no line. -/
theorem hostTurn_cases (s : State) :
    (∃ t, hostTurn s = .next t ∧ t = { s.performed (s.host.fetch.bind fun p => p.1.access) with host := t.host } ∧
      t.host.program = s.host.program ∧ (s.host.targetsOk → t.host.targetsOk)) ∨
    (∃ n, hostTurn s = .refused (.hostTarget n) ∧ ¬ s.host.targetsOk) := by
  unfold hostTurn
  cases hf : s.host.fetch with
  | none => exact .inl ⟨s, rfl, rfl, rfl, id⟩
  | some p =>
    obtain ⟨l, g⟩ := p
    obtain ⟨hp, hok⟩ := fetch_cases hf
    rcases runHostLine_cases l { s with host := g } with ⟨t, h, hm⟩ | ⟨n, h, hm⟩
    · refine .inl ⟨t, h, ?_, hm.program.trans hp, fun ok => ⟨?_, fun k hk => ?_⟩⟩
      · refine hm.access.trans ?_
        show _ = { s.performed l.access with host := t.host }
        cases l.access with
        | none => rfl
        | some a => simp only [State.performed, hostAccess_withHost]
      · rw [hm.program]
        exact (hok ok).1.1
      · rw [hm.program]
        rcases hm.todo k hk with hk | rfl
        · exact (hok ok).1.2 k hk
        · rfl
    · refine .inr ⟨n, h, fun ok => ?_⟩
      have hl := (hok ok).2
      rw [← hp] at hl
      exact absurd (hl.symm.trans hm) (by simp)

/-! ## Moves and steps -/

/-- What a move can do, move by move. -/
inductive Moved (s : State) : Event → State → Prop
  | completed {t i} : s.busy = true → decode s.slots.length s.cmd = .ok i → exec i s = .next t → Moved s .engine t
  | bad : s.busy = true → (∀ i, decode s.slots.length s.cmd ≠ .ok i) →
      Moved s .engine (s.complete .errBadCmd false)
  | idle : s.busy = false → Moved s .engine s
  | host {t} : t = { s.performed (s.host.fetch.bind fun p => p.1.access) with host := t.host } →
      t.host.program = s.host.program → (s.host.targetsOk → t.host.targetsOk) → Moved s .host t
  | access {a} : Moved s (.access a) (hostAccess a s)
  | reset : Moved s .reset s.resetUnit

theorem engineTurn_cases (s : State) : ∃ t, engineTurn s = .next t ∧ Moved s .engine t := by
  unfold engineTurn
  split
  · rename_i hb
    rcases completion_cases s with ⟨i, hd, h⟩ | ⟨hd, h⟩
    · obtain ⟨t, ht, _⟩ := exec_completed i s
      exact ⟨t, h.trans ht, .completed hb hd ht⟩
    · exact ⟨_, h, .bad hb hd⟩
  · rename_i hb
    exact ⟨s, rfl, .idle (by simpa using hb)⟩

theorem move_cases (e : Event) (s : State) :
    (∃ t, move e s = .next t ∧ Moved s e t) ∨
    (∃ n, move e s = .refused (.hostTarget n) ∧ e = .host ∧ ¬ s.host.targetsOk) := by
  cases e with
  | engine => exact .inl (engineTurn_cases s)
  | host =>
    rcases hostTurn_cases s with ⟨t, h, a, b, c⟩ | ⟨n, h, hn⟩
    · exact .inl ⟨t, h, .host a b c⟩
    · exact .inr ⟨n, h, rfl, hn⟩
  | access a => exact .inl ⟨_, rfl, .access⟩
  | reset => exact .inl ⟨_, rfl, .reset⟩

/-- The state a step's move acts on: the same but for the list of moves. -/
def State.popped (s : State) : State := { s with inbox := s.inbox.tail }

/-- What a step can do: the next move, or the refusal of a jump to no line. -/
theorem step_cases (s : State) :
    (∃ t, step s = .next t ∧ Moved s.popped s.nextEvent t) ∨
    (∃ n, step s = .refused (.hostTarget n) ∧ s.nextEvent = .host ∧ ¬ s.host.targetsOk) :=
  move_cases s.nextEvent s.popped

/-- The move behind a step that answers a next state. -/
theorem step_next {s t : State} (h : step s = .next t) : Moved s.popped s.nextEvent t := by
  rcases step_cases s with ⟨u, hu, hm⟩ | ⟨n, hn, _⟩
  · rw [h] at hu
    cases hu
    exact hm
  · rw [h] at hn
    cases hn

/-- A step either makes the next access, or is the engine's or the reset's move: what it leaves but for the host agent. -/
theorem Moved.cases_access {s t : State} (h : Moved s.popped s.nextEvent t) :
    (∃ a, s.nextAccess = some a ∧ t = { hostAccess a s.popped with host := t.host }) ∨
    (s.nextEvent = .reset ∧ t = s.popped.resetUnit) ∨
    (s.nextEvent = .engine ∧ s.busy = true ∧ t.busy = false ∧ t.done = true ∧ t.haz = s.haz ∧ t.cmd = s.cmd ∧
      t.hostFault = s.hostFault) ∨
    (s.nextAccess = none ∧ s.nextEvent ≠ .reset ∧ t = { s.popped with host := t.host }) := by
  generalize he : s.nextEvent = e at h
  cases h with
  | completed hb hd hx =>
    have c := (completed_of_exec hx).shape
    exact .inr (.inr (.inl ⟨rfl, hb, by rw [c], by rw [c], by rw [c]; rfl, by rw [c]; rfl, by rw [c]; rfl⟩))
  | bad hb => exact .inr (.inr (.inl ⟨rfl, hb, rfl, rfl, rfl, rfl, rfl⟩))
  | idle =>
    refine .inr (.inr (.inr ⟨?_, by simp, rfl⟩))
    unfold State.nextAccess
    rw [he]
  | host hm =>
    have ha : s.nextAccess = s.host.fetch.bind fun p => p.1.access := by
      unfold State.nextAccess
      rw [he]
    rw [show s.popped.host = s.host from rfl, ← ha] at hm
    cases hn : s.nextAccess with
    | none =>
      rw [hn] at hm
      exact .inr (.inr (.inr ⟨rfl, by simp, hm⟩))
    | some a =>
      rw [hn] at hm
      exact .inl ⟨a, rfl, hm⟩
  | @access a =>
    refine .inl ⟨a, ?_, rfl⟩
    unfold State.nextAccess
    rw [he]
  | reset => exact .inr (.inl ⟨rfl, rfl⟩)

theorem Moved.targets {s t : State} {e : Event} (h : Moved s e t) (ok : s.host.targetsOk) : t.host.targetsOk := by
  cases h with
  | completed hb hd he =>
    rw [(completed_of_exec he).shape]
    exact ok
  | bad => exact ok
  | idle => exact ok
  | host _ _ ht => exact ht ok
  | access =>
    rw [(ported_hostAccess _ _).host]
    exact ok
  | reset => exact ok

theorem Moved.inbox {s t : State} {e : Event} (h : Moved s e t) : t.inbox = s.inbox := by
  cases h with
  | completed hb hd he => rw [(completed_of_exec he).shape]
  | bad => rfl
  | idle => rfl
  | host hm =>
    rw [hm]
    cases s.host.fetch.bind fun p => p.1.access with
    | none => rfl
    | some a => exact (ported_hostAccess a s).inbox
  | access => exact (ported_hostAccess _ _).inbox
  | reset => rfl

/-- The step at the engine's turn, listed or by default, while BUSY = 1 is the completion. -/
theorem step_engine {s : State} (hb : s.busy = true) (he : s.nextEvent = .engine) :
    step s = completion { s with inbox := s.inbox.tail } := by
  unfold step nextMove
  rw [he]
  simp [move, engineTurn, hb]

end Sys2Proof.Machine
end

