-- ==== Sys2Proof/Tests/Slice0.lean ====
section
/-! SUPPORT. Tests against the words and vectors of the spec (30_encoding.md R87, 95_test_vectors.md), and for every
obligation with hypotheses a witness that meets them. -/

namespace Sys2Proof.Tests

open Sys2Proof.Machine

/-! ## Small states: the parameters of 95_test_vectors.md section 0 -/

/-- Bytes listed from `a` up. -/
def bytesAt (a : Nat) (bs : List Byte) : Memory := (List.range' a bs.length).zip bs

/-- DATA_BYTES = 512, NUM_SESSIONS = 2, KEY_MAX_BYTES = 56, TEST_FALLBACK; slot 0 free, slot 1 keyed. -/
def unit (off size : Word) (m : Memory) : State :=
  { State.reset with
    cfg := ⟨512, 56, [0xF0, 0xF1, 0xF2, 0xF3, 0xF4, 0xF5, 0xF6, 0xF7, 0xF8, 0xF9, 0xFA, 0xFB, 0xFC, 0xFD, 0xFE, 0xFF]⟩
    slots := [Slot.free, ⟨true, [1, 2, 3, 4, 5, 6, 7, 8]⟩]
    offset := off
    size := size
    ram := ⟨m, 0⟩ }

/-- A command in flight, with the listed moves to come. -/
def running (i : Instr) (moves : List Event) (s : State) : State := { s.issue (encode i) with inbox := moves }

/-- A view of the next state. -/
def view {α : Type} (o : Outcome) (f : State → α) : Option α :=
  match o with
  | .next t => some (f t)
  | .fault _ => none
  | .refused _ => none

/-- STATUS and the first n DATA bytes from a. -/
def seen (a n : Nat) (t : State) : Word × List Byte := (t.statusWord, t.ram.read a n)

/-! ## WellFormed: ill-formed terms are refused (30_encoding.md R85 condition 3) -/

theorem test_wf_refuses_slot : (Instr.sessInitk 2).wf 2 = false ∧ (Instr.sessInitf 2).wf 2 = false ∧
    (Instr.sessClose 15).wf 15 = false ∧ (Instr.bcEnc 1).wf 1 = false ∧ (Instr.bcDec 4).wf 4 = false := by decide

theorem test_wf_accepts_last_slot : (Instr.bcEnc 15).wf 16 = true ∧ (Instr.sessInitk 0).wf 1 = true ∧
    Instr.modDesc.wf 1 = true := by decide

/-! ## Decode: words written out from 30_encoding.md R87 -/

theorem test_decode_slot_words : decode 16 0x00000F01 = .ok (.sessInitk 15) ∧ decode 16 0x00000002 = .ok (.sessInitf 0) ∧
    decode 16 0x00000803 = .ok (.sessClose 8) ∧ decode 16 0x00000304 = .ok (.bcEnc 3) ∧
    decode 16 0x00000105 = .ok (.bcDec 1) := by decide

theorem test_decode_plain_words : decode 1 0x00000006 = .ok .ckVerify ∧ decode 1 0x00000007 = .ok .ckAppend ∧
    decode 1 0x00000008 = .ok .obfEnc ∧ decode 1 0x00000009 = .ok .obfDec ∧ decode 1 0x0000000A = .ok .modDesc := by decide

/-- Vectors X1 to X8. -/
theorem test_decode_rejects : decode 2 0x00000000 = .error .reservedOp ∧ decode 2 0x0000000B = .error .reservedOp ∧
    decode 2 0x0000000F = .error .reservedOp ∧ decode 2 0x00000014 = .error .reservedBits ∧
    decode 2 0x00001004 = .error .reservedBits ∧ decode 2 0x80000001 = .error .reservedBits ∧
    decode 2 0x00000106 = .error .slotNotZero ∧ decode 2 0x00000F0A = .error .slotNotZero ∧
    decode 2 0x00000204 = .error .slotOutOfRange := by decide

theorem test_decodeTableWord : decodeTableWord 32 0x00000304 = some (.bcEnc 3) ∧ decodeTableWord 32 0x1004 = none := by
  decide

/-! ## Commands: at most two vectors each -/

/-- Vector S1. -/
theorem test_sessInitk_s1 : view (exec (.sessInitk 0) (unit 0x100 8 (bytesAt 0x100 [1, 2, 3, 4, 5, 6, 7, 8])))
    (fun t => (t.statusWord, t.sessValidWord, t.slotAt 0)) = some (0x02, 3, ⟨true, [1, 2, 3, 4, 5, 6, 7, 8]⟩) := by decide

/-- Vectors S11 (lengths 0 and 57) and S12 (the window check comes first). -/
theorem test_sessInitk_errors : view (exec (.sessInitk 0) (unit 0x100 0 [])) State.statusWord = some 0x62 ∧
    view (exec (.sessInitk 0) (unit 0x100 57 [])) State.statusWord = some 0x62 ∧
    view (exec (.sessInitk 1) (unit 0x1F9 8 [])) State.statusWord = some 0x12 ∧
    view (exec (.sessInitk 1) (unit 0x100 8 [])) State.statusWord = some 0x52 := by decide

/-- Vector S6, with a window that no command with a window could use (S15). -/
theorem test_sessInitf_s6 : view (exec (.sessInitf 0) (unit 0xFFFFFFFF 0xFFFFFFFF []))
    (fun t => (t.statusWord, t.sessValidWord, (t.slotAt 0).key.head?, (t.slotAt 0).key.length)) =
    some (0x02, 3, some 0xF0, 16) := by decide

/-- Vector S8. -/
theorem test_sessInitf_s8 : view (exec (.sessInitf 1) (unit 0 0 [])) State.statusWord = some 0x52 := by decide

/-- Vector S9, the first close and the second. -/
theorem test_sessClose_s9 : view (exec (.sessClose 1) (unit 0 0 [])) (fun t => (t.statusWord, t.sessValidWord)) =
    some (0x02, 0) ∧
    view (exec (.sessClose 0) (unit 0 0 [])) (fun t => (t.statusWord, t.sessValidWord)) = some (0x02, 2) := by decide

/-- Vectors S5, X10 and S13. -/
theorem test_bcEnc_status : view (exec (.bcEnc 0) (unit 0x080 20 [])) State.statusWord = some 0x42 ∧
    view (exec (.bcEnc 0) (unit 0x1FF 2 [])) State.statusWord = some 0x12 ∧
    view (exec (.bcEnc 1) (unit 0x200 0 [])) (fun t => (t.statusWord, t.ram.cells)) = some (0x02, []) := by decide

/-- The block loop of vector S3 with the TOY cipher on the key 01 .. 08: two blocks, 4 remainder bytes. -/
theorem test_blocks_s3 : (mapBlocks (fun b => ⟨b.b0 ^^^ 1, b.b1 ^^^ 2, b.b2 ^^^ 3, b.b3 ^^^ 4, b.b4 ^^^ 5, b.b5 ^^^ 6,
      b.b6 ^^^ 7, b.b7 ^^^ 8⟩) 0x080 (blockCount 20) ⟨bytesAt 0x080 [0x10, 0x11, 0x12, 0x13, 0x14, 0x15, 0x16, 0x17,
        0x18, 0x19, 0x1A, 0x1B, 0x1C, 0x1D, 0x1E, 0x1F, 0x20, 0x21, 0x22, 0x23], 0⟩).read 0x080 20 =
    [0x11, 0x13, 0x11, 0x17, 0x11, 0x13, 0x11, 0x1F, 0x19, 0x1B, 0x19, 0x1F, 0x19, 0x1B, 0x19, 0x17,
      0x20, 0x21, 0x22, 0x23] := by decide

/-- BC.DEC on a free slot, and vector S14: a window of 7 bytes holds no block. -/
theorem test_bcDec_status : view (exec (.bcDec 0) (unit 0x080 20 [])) State.statusWord = some 0x42 ∧
    view (exec (.bcDec 1) (unit 0x080 7 [])) (fun t => (t.statusWord, t.ram.cells)) = some (0x02, []) := by decide

/-- Vectors K2 and K3. -/
theorem test_ckVerify_k2_k3 :
    view (exec .ckVerify (unit 0 12 (bytesAt 0 [1, 0, 0, 0, 2, 0, 0, 0, 3, 0, 0, 0]))) State.statusWord = some 0x06 ∧
    view (exec .ckVerify (unit 0 12 (bytesAt 0 [1, 0, 0, 0, 2, 0, 0, 0, 4, 0, 0, 0]))) State.statusWord = some 0x02 := by
  decide

/-- Vectors K7, K10 and K12. -/
theorem test_ckVerify_errors : view (exec .ckVerify (unit 0 4 [])) State.statusWord = some 0x22 ∧
    view (exec .ckVerify (unit 0 10 [])) State.statusWord = some 0x22 ∧
    view (exec .ckVerify (unit 508 6 [])) State.statusWord = some 0x12 ∧
    view (exec .ckVerify (unit 0xFFFFFFFF 2 [])) State.statusWord = some 0x12 := by decide

/-- Vector K5. -/
theorem test_ckAppend_k5 : view (exec .ckAppend (unit 0 16 (bytesAt 0 [0x11, 0x22, 0x33, 0x44, 0x55, 0x66, 0x77, 0x88,
      0x99, 0xAA, 0xBB, 0xCC, 0xDE, 0xAD, 0xBE, 0xEF]))) (seen 8 8) =
    some (0x02, [0x99, 0xAA, 0xBB, 0xCC, 0xDD, 0xEE, 0xFF, 0x00]) := by decide

/-- Vector K11: an unaligned window. -/
theorem test_ckAppend_k11 : view (exec .ckAppend (unit 1 12 (bytesAt 0 [0, 1, 0, 0, 0, 2, 0, 0, 0, 0, 0, 0, 0, 0])))
    (seen 0 14) = some (0x02, [0, 1, 0, 0, 0, 2, 0, 0, 0, 3, 0, 0, 0, 0]) := by decide

/-- Vector O6. -/
theorem test_obfEnc_o6 : view (exec .obfEnc { unit 0 17 (bytesAt 0 [1, 2, 3, 4, 5, 6, 7, 8, 9, 0x0A, 0x0B, 0x0C, 0x0D,
      0x0E, 0x0F, 0x10, 0x11]) with obfKey := 0x80000000 }) (seen 0 17) =
    some (0x02, [1, 2, 3, 4, 0, 0, 0, 0x80, 7, 0x1A, 0x19, 0x98, 0x0D, 0x0E, 0x10, 0x12, 0x94]) := by decide

/-- Vectors O1, O13 and O16. -/
theorem test_obfEnc_o1_o13_o16 : view (exec .obfEnc { unit 0 9 (bytesAt 0 [1, 2, 3, 4, 5, 6, 7, 8, 9]) with
      obfKey := 0x11223344 }) (seen 0 9) = some (0x02, [1, 2, 3, 4, 5, 0x44, 0x33, 0x22, 0x11]) ∧
    view (exec .obfEnc (unit 0 8 [])) State.statusWord = some 0x12 ∧
    view (exec .obfEnc (unit 504 8 [])) State.statusWord = some 0x12 := by decide

/-- Vector O6, the decode of what the encode leaves. -/
theorem test_obfDec_o6 : view (exec .obfDec (unit 0 17 (bytesAt 0 [1, 2, 3, 4, 0, 0, 0, 0x80, 7, 0x1A, 0x19, 0x98, 0x0D,
      0x0E, 0x10, 0x12, 0x94]))) (seen 0 17) =
    some (0x02, [1, 2, 3, 4, 5, 6, 7, 8, 9, 0x0A, 0x0B, 0x0C, 0x0D, 0x0E, 0x10, 0x12, 0x94]) := by decide

/-- Vector O11: bytes that were never encoded. -/
theorem test_obfDec_o11 : view (exec .obfDec (unit 0 16 (bytesAt 0 [1, 2, 3, 4, 5, 6, 7, 8, 9, 0x0A, 0x0B, 0x0C, 0x0D,
      0x0E, 0x0F, 0x10]))) (seen 4 4) = some (0x02, [8, 8, 8, 0x18]) := by decide

/-- Vectors M1 (eight of its bytes) and M5. -/
theorem test_modDesc_m1 : view (exec .modDesc (unit 0 128 (bytesAt 0 ((List.range 128).map (BitVec.ofNat 8)))))
    (fun t => (t.statusWord, [0, 3, 4, 13, 16, 63, 77, 80].map t.ram.byte)) =
    some (0x02, [0x40, 0x40, 0x44, 0x79, 0x67, 0x7F, 0x40, 0x43]) := by decide +kernel

theorem test_modDesc_errors : view (exec .modDesc (unit 0 127 [])) State.statusWord = some 0x22 ∧
    view (exec .modDesc (unit 400 128 [])) State.statusWord = some 0x12 := by decide

/-! ## The host port, the step and the host agent -/

/-- Vectors H2, H6 and H9. -/
theorem test_registers : (hostAccess (.read 32 0x000) (hostAccess (.write 32 0x000 0xFFFFFFFF) (unit 0 0 []))).rdata = 1 ∧
    (hostAccess (.read 32 0x00C) (hostAccess (.write 32 0x00C 0xFFFFFFFF) (unit 0 0 []))).rdata = 0xFFFFFFFF ∧
    (hostAccess (.write 32 0x004 0xFFFFFFFF) { unit 0 0 [] with done := true, haz := true }).statusWord = 0 := by decide

/-- Vectors H4 and H5. -/
theorem test_data_window : (hostAccess (.read 32 0x1000) (hostAccess (.write 8 0x1002 0xAA)
    (hostAccess (.write 32 0x1000 0x11223344) (unit 0 0 [])))).rdata = 0x11AA3344 := by decide

/-- Vector H10: the write is dropped and HAZ is set. -/
theorem test_busy_write : (hostAccess (.write 32 0x00C 5) (running .ckVerify [] (unit 0 16 []))).statusWord = 0x09 ∧
    (hostAccess (.write 32 0x00C 5) (running .ckVerify [] (unit 0 16 []))).offset = 0 := by decide

/-- Vector H13: four bus errors, HAZ unchanged. -/
theorem test_bus_errors : (hostAccess (.read 32 0x01C) (unit 0 0 [])).hostFault = some (.unmapped 0x01C) ∧
    (hostAccess (.write 8 0x004 1) (unit 0 0 [])).hostFault = some (.badWidth 8 0x004) ∧
    (hostAccess (.read 32 0x1001) (unit 0 0 [])).hostFault = some (.misaligned 0x1001) ∧
    (hostAccess (.read 32 0x1200) (unit 0 0 [])).hostFault = some (.unmapped 0x1200) := by decide

/-- Vector X3 as a step: the word completes with ERR_BAD_CMD and CMD reads it back. -/
theorem test_step_bad_word : view (step ((unit 0 0 []).inFlight 0x14)) (fun t => (t.statusWord, t.cmd)) =
    some (0x32, 0x14) := by decide

/-- The first step after reset with SESS.CLOSE 0 placed runs it. -/
theorem test_first_step : view (step (State.reset.withFetchWord 32 0x03)) State.statusWord = some 0x02 := by
  decide +kernel

/-- Program line 12 of P1, and SETWIN's first access. -/
theorem test_host_lines :
    view (step { unit 0 0 [] with host := ⟨[.plain (.w8 0x1005 0x5A)], 1, [], [], false⟩ })
      (fun t => (t.ram.cells, t.host.line)) = some ([(5, 0x5A)], 2) ∧
    view (step { unit 0 0 [] with host := ⟨[.setwin 0x80 128], 1, [], [], false⟩ })
      (fun t => (t.offset, t.size, t.host.todo)) = some (0x80, 0, [.w32 0x010 128]) := by decide

/-! ## Witnesses: for each obligation with hypotheses, a state and operands that meet them, clause by clause -/

/-- A program that jumps only to its own lines. -/
def looping : HostAgent := ⟨[.plain (.goto 2), .plain .halt], 1, [], [], false⟩

theorem witness_DecodeInvertsEncode : (Instr.bcEnc 15).wf 16 = true ∧ (Instr.sessInitk 0).wf 1 = true ∧
    Instr.obfDec.wf 0 = true := by decide

theorem witness_EncodeInvertsDecode : decode 16 0x00000F05 = .ok (.bcDec 15) ∧ decode 1 0x0A = .ok .modDesc := by decide

theorem witness_DecodeAcceptsExactlyWellFormedWords :
    decode 2 0x00000104 = .ok (.bcEnc 1) ∧ ((unit 0 0 []).inFlight 0x204).busy = true ∧
    { (unit 0 0 []).inFlight 0x204 with inbox := [.engine, .host] }.nextEvent = .engine ∧
    ((unit 0 0 []).inFlight 0x204).nextEvent = .engine ∧
    ∀ i, decode ((unit 0 0 []).inFlight 0x204).slots.length ((unit 0 0 []).inFlight 0x204).cmd ≠ .ok i :=
  ⟨by decide, rfl, rfl, rfl, fun i h => by
    have : decode ((unit 0 0 []).inFlight 0x204).slots.length ((unit 0 0 []).inFlight 0x204).cmd =
      .error .slotOutOfRange := by decide
    rw [this] at h
    cases h⟩

theorem witness_OpcodeTableSelectsCommands : (opcodeTable.any fun r => decide (r.Selects 0x00000F01)) = true ∧
    (opcodeTable.any fun r => decide (r.Selects 0x0000000A)) = true ∧ decodeRow 0x00000F01 = .ok (.sessInitk 15) := by
  decide

/-- The boundary words of the four kinds of R86, on a unit with 2 slots. -/
theorem witness_IllegalWordsChangeOnlyStatus :
    { (unit 0 0 []).inFlight 0 with inbox := [.engine] }.busy = true ∧
    { (unit 0 0 []).inFlight 0 with inbox := [.engine] }.nextEvent = .engine ∧
    ((unit 0 0 []).inFlight 0).nextEvent = .engine ∧ (0x00000000 : Word).extractLsb' 0 4 = 0 ∧
    11 ≤ ((0x0000000B : Word).extractLsb' 0 4).toNat ∧ (0x00000011 : Word).extractLsb' 4 4 ≠ 0 ∧
    (0x00001001 : Word).extractLsb' 12 20 ≠ 0 ∧
    (6 ≤ ((0x00000106 : Word).extractLsb' 0 4).toNat ∧ (0x00000106 : Word).extractLsb' 8 4 ≠ 0) ∧
    (((0x00000F0A : Word).extractLsb' 0 4).toNat ≤ 10 ∧ (0x00000F0A : Word).extractLsb' 8 4 ≠ 0) ∧
    (1 ≤ ((0x00000201 : Word).extractLsb' 0 4).toNat ∧ (unit 0 0 []).slots.length ≤ ((0x00000201 : Word).extractLsb' 8 4).toNat) ∧
    (((0x00000205 : Word).extractLsb' 0 4).toNat ≤ 5 ∧
      (unit 0 0 []).slots.length ≤ ((0x00000205 : Word).extractLsb' 8 4).toNat) := by decide

theorem witness_StepRunsDecodedCommand :
    (running (.bcEnc 1) [] (unit 0 8 [])).busy = true ∧
    decode (running (.bcEnc 1) [] (unit 0 8 [])).slots.length (running (.bcEnc 1) [] (unit 0 8 [])).cmd = .ok (.bcEnc 1) ∧
    (running (.bcEnc 1) [] (unit 0 8 [])).inbox = [] ∧
    (running (.bcEnc 1) [.engine, .reset] (unit 0 8 [])).inbox = .engine :: [.reset] ∧
    (unit 0 8 []).busy = false ∧ { unit 0 8 [] with inbox := [.engine] }.inbox = .engine :: [] := by decide

theorem witness_CommandWriteIssues : (unit 0 0 []).busy = false ∧ (running .ckVerify [] (unit 0 0 [])).busy = true := by
  decide

theorem witness_CommandFrame : view (exec .ckAppend (unit 0 8 [])) State.busy = some false := by decide

theorem witness_ErrorsChangeOnlyStatus : view (exec (.bcEnc 0) (unit 0 8 [])) State.result = some .errNoSession := by decide

/-- A state with a command in flight, two moves listed and a program whose jumps go to its lines. -/
theorem witness_CommandInFlightCompletes :
    { running .ckVerify [.host, .access (.read 32 4)] (unit 0 8 []) with host := looping }.busy = true ∧
    { running .ckVerify [.host, .access (.read 32 4)] (unit 0 8 []) with host := looping }.host.targetsOk := by
  refine ⟨rfl, ?_⟩
  unfold HostAgent.targetsOk
  decide

theorem witness_StepNeverFaults : { unit 0 0 [] with host := looping }.host.targetsOk := by
  unfold HostAgent.targetsOk
  decide

/-- A state with a written byte and a keyed slot satisfies the invariant, and its step answers a next state. -/
theorem witness_StepKeepsInvariant : (running (.sessClose 1) [] (unit 0 0 [(3, 7), (511, 9)])).Inv ∧
    view (step (running (.sessClose 1) [] (unit 0 0 [(3, 7), (511, 9)]))) State.result = some .ok :=
  ⟨⟨by decide, by decide, by decide, by decide, by decide, by decide, by decide, by decide⟩, by decide⟩

theorem witness_StepKeepsMemoryCanonical : (unit 0 8 [(3, 7), (511, 9)]).ram.cells.wf ∧
    view (step (running .ckAppend [] (unit 0 8 [(3, 7), (511, 9)]))) State.result = some .ok := by decide

theorem witness_ParametersNeverChange : view (step { unit 0 0 [] with inbox := [.reset] }) State.size = some 0 := by decide

/-- Each clause: the window one byte too long, the keyed slot, sizes 0 and 57, sizes 1 and 56 on the last slot. -/
theorem witness_SessInitkResult :
    (unit 504 9 []).cfg.dataBytes < (unit 504 9 []).off + (unit 504 9 []).len ∧
    ((unit 504 8 []).off + (unit 504 8 []).len ≤ (unit 504 8 []).cfg.dataBytes ∧ ((unit 504 8 []).slotAt 1).valid = true) ∧
    ((unit 0 0 []).off + (unit 0 0 []).len ≤ (unit 0 0 []).cfg.dataBytes ∧ ((unit 0 0 []).slotAt 0).valid = false ∧
      (unit 0 0 []).len = 0) ∧
    ((unit 0 57 []).off + (unit 0 57 []).len ≤ (unit 0 57 []).cfg.dataBytes ∧
      (unit 0 57 []).cfg.keyMaxBytes < (unit 0 57 []).len) ∧
    ((unit 456 56 []).off + (unit 456 56 []).len ≤ (unit 456 56 []).cfg.dataBytes ∧ 1 ≤ (unit 456 56 []).len ∧
      (unit 456 56 []).len ≤ (unit 456 56 []).cfg.keyMaxBytes ∧ (0 : BitVec 4).toNat < (unit 456 56 []).slots.length) := by
  decide

theorem witness_SessInitfResult : ((unit 0 0 []).slotAt 1).valid = true ∧ ((unit 0 0 []).slotAt 0).valid = false := by decide

theorem witness_SessCloseResult : ((unit 0 512 []).slotAt 0).valid = false ∧ (0 : Nat) ≠ (1 : BitVec 4).toNat ∧
    (unit 0 512 []).off + (unit 0 512 []).len ≤ (unit 0 512 []).cfg.dataBytes := by decide

/-- Each clause, for BC.ENC and BC.DEC alike: block 0 of 1 and the first remainder byte at the end of the DATA RAM. -/
theorem witness_BcEncResult :
    (unit 504 9 []).cfg.dataBytes < (unit 504 9 []).off + (unit 504 9 []).len ∧
    ((unit 504 8 []).off + (unit 504 8 []).len ≤ (unit 504 8 []).cfg.dataBytes ∧ ((unit 504 8 []).slotAt 0).valid = false ∧
      ((unit 504 8 []).slotAt 1).valid = true) ∧
    0 < (unit 504 8 []).len / 8 ∧ 504 - 1 < (unit 504 8 []).off ∧
    (unit 503 9 []).off + 8 * ((unit 503 9 []).len / 8) ≤ 511 := by decide

theorem witness_BcDecResult :
    (unit 504 9 []).cfg.dataBytes < (unit 504 9 []).off + (unit 504 9 []).len ∧
    ((unit 504 8 []).off + (unit 504 8 []).len ≤ (unit 504 8 []).cfg.dataBytes ∧ ((unit 504 8 []).slotAt 0).valid = false ∧
      ((unit 504 8 []).slotAt 1).valid = true) ∧
    0 < (unit 504 8 []).len / 8 ∧ 504 - 1 < (unit 504 8 []).off ∧
    (unit 503 9 []).off + 8 * ((unit 503 9 []).len / 8) ≤ 511 := by decide

theorem witness_BlockRoundTrip :
    let s := running (.bcEnc 1) [.engine, .engine] (unit 492 20 [])
    s.busy = true ∧ s.inbox = .engine :: .engine :: [] ∧ s.cmd = encode (.bcEnc 1) ∧
    (1 : BitVec 4).toNat < s.slots.length ∧ (s.slotAt 1).valid = true ∧ 1 ≤ (s.slotAt 1).key.length ∧
    (s.slotAt 1).key.length ≤ s.cfg.keyMaxBytes ∧ s.off + s.len ≤ s.cfg.dataBytes := by decide

theorem witness_CommandsTouchOnlyTheirSlot : view (exec (.sessClose 1) (unit 0 0 [])) State.sessValidWord = some 0 ∧
    (1 : BitVec 4).toNat ≠ 0 ∧ view (exec .ckVerify (unit 0 8 [])) State.result = some .ok := by decide

/-- A keyed slot before a host access, and before its own SESS.CLOSE. -/
theorem witness_KeyedSlotKeepsItsKey :
    let s := running (.sessClose 1) [] (unit 0 0 [])
    let q := { unit 0 0 [] with inbox := [.access (.write 32 0x018 0)] }
    (s.slots[1]? = some ⟨true, [1, 2, 3, 4, 5, 6, 7, 8]⟩ ∧ view (step s) State.sessValidWord = some 0 ∧
      q.slots[1]? = some ⟨true, [1, 2, 3, 4, 5, 6, 7, 8]⟩ ∧ view (step q) State.sessValidWord = some 2) ∧
    (∀ rest, s.inbox ≠ .reset :: rest) ∧ ∀ rest, q.inbox ≠ .reset :: rest :=
  ⟨by decide, fun _ h => (nomatch h), fun _ h => (nomatch h)⟩

/-- Each clause: one byte too long; sizes 4 and 9; the smallest size 8 at the end of the DATA RAM. -/
theorem witness_CkVerifyResult :
    (unit 508 8 []).cfg.dataBytes < (unit 508 8 []).off + (unit 508 8 []).len ∧
    ((unit 508 4 []).off + (unit 508 4 []).len ≤ (unit 508 4 []).cfg.dataBytes ∧ (unit 508 4 []).len ≤ 4) ∧
    (unit 503 9 []).len % 4 ≠ 0 ∧
    ((unit 504 8 []).off + (unit 504 8 []).len ≤ (unit 504 8 []).cfg.dataBytes ∧ (unit 504 8 []).len % 4 = 0 ∧
      4 < (unit 504 8 []).len) := by decide

theorem witness_CkAppendResult :
    (unit 508 8 []).cfg.dataBytes < (unit 508 8 []).off + (unit 508 8 []).len ∧
    ((unit 508 4 []).off + (unit 508 4 []).len ≤ (unit 508 4 []).cfg.dataBytes ∧ (unit 508 4 []).len ≤ 4) ∧
    (unit 503 9 []).len % 4 ≠ 0 ∧
    ((unit 504 8 []).off + (unit 504 8 []).len ≤ (unit 504 8 []).cfg.dataBytes ∧ (unit 504 8 []).len % 4 = 0 ∧
      4 < (unit 504 8 []).len) ∧ 507 < (unit 504 8 []).off + (unit 504 8 []).len - 4 := by decide

theorem witness_AppendThenVerifySucceeds :
    let s := running .ckAppend [.engine, .engine] (unit 504 8 [])
    s.busy = true ∧ s.inbox = .engine :: .engine :: [] ∧ s.cmd = encode .ckAppend ∧ s.off + s.len ≤ s.cfg.dataBytes ∧
    s.len % 4 = 0 ∧ 4 < s.len := by decide

/-- Each clause: too long, size 8; size 9 with no grid word; size 13 with grid word 1 and the byte between. -/
theorem witness_ObfEncResult :
    ((unit 504 9 []).cfg.dataBytes < (unit 504 9 []).off + (unit 504 9 []).len ∧ (unit 504 8 []).len < 9) ∧
    ((unit 503 9 []).off + (unit 503 9 []).len ≤ (unit 503 9 []).cfg.dataBytes ∧ 9 ≤ (unit 503 9 []).len) ∧
    1 ≤ ((unit 499 13 []).len - 9) / 4 ∧
    ((unit 499 13 []).off + 4 * (((unit 499 13 []).len - 9) / 4 + 1) ≤ 507 ∧
      507 < (unit 499 13 []).off + (unit 499 13 []).len - 4) ∧ 502 < (unit 499 13 []).off + 4 := by decide

theorem witness_ObfDecResult :
    ((unit 504 9 []).cfg.dataBytes < (unit 504 9 []).off + (unit 504 9 []).len ∧ (unit 504 8 []).len < 9) ∧
    ((unit 503 9 []).off + (unit 503 9 []).len ≤ (unit 503 9 []).cfg.dataBytes ∧ 9 ≤ (unit 503 9 []).len) ∧
    1 ≤ ((unit 499 13 []).len - 9) / 4 ∧
    (unit 499 13 []).off + 4 * (((unit 499 13 []).len - 9) / 4 + 1) ≤ 507 ∧ 502 < (unit 499 13 []).off + 4 := by decide

theorem witness_ObfuscatorRoundTrip :
    let s := running .obfEnc [.engine, .engine] (unit 503 9 [])
    s.busy = true ∧ s.inbox = .engine :: .engine :: [] ∧ s.cmd = encode .obfEnc ∧ s.off + s.len ≤ s.cfg.dataBytes ∧
    9 ≤ s.len := by decide

theorem witness_ObfuscatorIgnoresSessions : Instr.obfEnc ∈ [Instr.obfEnc, Instr.obfDec] ∧
    Instr.obfDec ∈ [Instr.obfEnc, Instr.obfDec] := by decide

/-- Each clause of ModDescResult; the last is the premise of the bijection, linearity and modulus statements too. -/
theorem witness_ModDescResult :
    (unit 385 128 []).cfg.dataBytes < (unit 385 128 []).off + (unit 385 128 []).len ∧
    ((unit 384 127 []).off + (unit 384 127 []).len ≤ (unit 384 127 []).cfg.dataBytes ∧ (unit 384 127 []).len ≠ 128) ∧
    ((unit 384 128 []).off + (unit 384 128 []).len ≤ (unit 384 128 []).cfg.dataBytes ∧ (unit 384 128 []).len = 128) := by
  decide

/-- Two DATA RAMs that differ outside the window: MOD.DESC leaves the same window bytes. -/
theorem witness_ModDescIsBijective :
    (unit 0 128 []).off + (unit 0 128 []).len ≤ (unit 0 128 []).cfg.dataBytes ∧ (unit 0 128 []).len = 128 ∧
    view (exec .modDesc { unit 0 128 [] with ram := ⟨bytesAt 0 (List.replicate 129 0), 0⟩ }) (fun t => t.ram.read 0 128) =
      some (List.replicate 128 0) ∧
    view (exec .modDesc { unit 0 128 [] with ram := ⟨bytesAt 0 (List.replicate 128 0), 0⟩ }) (fun t => t.ram.read 0 128) =
      some (List.replicate 128 0) := by decide +kernel

/-- Windows of zero bytes: their XOR is zero. -/
theorem witness_ModDescIsLinear :
    (unit 0 128 []).off + (unit 0 128 []).len ≤ (unit 0 128 []).cfg.dataBytes ∧ (unit 0 128 []).len = 128 ∧
    ∀ i, i < 128 → (⟨bytesAt 0 (List.replicate 128 0), 0⟩ : Ram).byte ((unit 0 128 []).off + i) =
      (⟨bytesAt 0 (List.replicate 128 0), 0⟩ : Ram).byte ((unit 0 128 []).off + i) ^^^
      (⟨bytesAt 0 (List.replicate 128 0), 0⟩ : Ram).byte ((unit 0 128 []).off + i) := by decide +kernel

theorem witness_ModulusIsBigEndian :
    (unit 0 128 []).off + (unit 0 128 []).len ≤ (unit 0 128 []).cfg.dataBytes ∧ (unit 0 128 []).len = 128 ∧
    ∀ i, i < 128 → (unit 0 128 (bytesAt 0 (List.replicate 128 0))).ram.byte ((unit 0 128 []).off + i) = 0 := by
  decide +kernel

/-- The two edges of the window of a CK.APPEND, and a SESS.INITK. -/
theorem witness_CommandsWriteOnlyTheirWindow : view (exec .ckAppend (unit 8 8 [])) State.result = some .ok ∧
    7 < (unit 8 8 []).off ∧ (unit 8 8 []).off + (unit 8 8 []).len ≤ 16 ∧
    view (exec (.sessInitk 0) (unit 8 8 [])) State.result = some .ok := by decide

/-- Two RAMs that differ at the bytes next to the window only. -/
theorem witness_CommandsReadOnlyTheirWindow : ∀ a, (unit 8 1 []).off ≤ a → a < (unit 8 1 []).off + (unit 8 1 []).len →
    (⟨[(7, 1), (8, 5), (9, 1)], 0⟩ : Ram).byte a = (unit 8 1 [(8, 5)]).ram.byte a := by
  have e : (unit 8 1 []).off = 8 ∧ (unit 8 1 []).off + (unit 8 1 []).len = 9 := by decide
  intro a h1 h2
  rw [e.1] at h1
  rw [e.2] at h2
  obtain rfl : a = 8 := by omega
  decide

/-- Each clause: a sum past DATA_BYTES, a sum that would wrap, size 0 at DATA_BYTES, an OBF.ENC of size 8, no window. -/
theorem witness_WindowCheckComesFirst : Instr.ckVerify.usesWindow = true ∧
    (unit 508 6 []).cfg.dataBytes < (unit 508 6 []).offset.toNat + (unit 508 6 []).size.toNat ∧
    (unit 0xFFFFFFFF 2 []).cfg.dataBytes < (unit 0xFFFFFFFF 2 []).offset.toNat + (unit 0xFFFFFFFF 2 []).size.toNat ∧
    (unit 512 0 []).offset.toNat + (unit 512 0 []).size.toNat ≤ (unit 512 0 []).cfg.dataBytes ∧
    ((unit 504 8 []).offset.toNat + (unit 504 8 []).size.toNat ≤ (unit 504 8 []).cfg.dataBytes ∧
      view (exec .obfEnc (unit 504 8 [])) State.result = some .errRange) ∧
    (Instr.sessInitf 0).usesWindow = false := by decide

/-- A recorded bus error before a reset. -/
theorem witness_AcceptedHostAccesses_step :
    let s := { unit 0 0 [] with inbox := [.reset], hostFault := some (.unmapped 0x01C) }
    s.hostFault = some (.unmapped 0x01C) ∧ view (step s) State.hostFault = some (some (.unmapped 0x01C)) := by decide

/-- DATA_BYTES a multiple of 4, the last accepted offset of each kind, and a rejected access of each cause. -/
theorem witness_AcceptedHostAccesses : 512 % 4 = 0 ∧ route 512 32 0x018 = .ok (.reg .sessValid) ∧
    route 512 8 0x11FF = .ok (.ramByte 511) ∧ route 512 32 0x11FC = .ok (.ramWord 508) ∧
    ((Access.read 32 0x1200).routed (unit 0 0 []).cfg.dataBytes).2 = .error (.unmapped 0x1200) ∧
    ((Access.write 16 0x1000 0).routed (unit 0 0 []).cfg.dataBytes).2 = .error (.badWidth 16 0x1000) ∧
    ((Access.write 32 0x11FD 0).routed (unit 0 0 []).cfg.dataBytes).2 = .error (.misaligned 0x11FD) := by decide

theorem witness_BusErrorChangesNothing : 4 ≤ (unit 0 0 []).cfg.dataBytes ∧
    (32, 0x1001) ∈ [(32, 0x01C), (8, 0x01C), (32, 0xFFF), (8, 0xFFF), (32, 0x1000 + (unit 0 0 []).cfg.dataBytes),
      (8, 0x1000 + (unit 0 0 []).cfg.dataBytes), (8, 0x004), (16, 0x004), (32, 0x006), (16, 0x1000), (32, 0x1001)] := by
  decide

theorem witness_BusyHazard : (running .ckVerify [] (unit 0 8 [])).busy = true ∧ 0x014 ∈ [0x008, 0x00C, 0x010, 0x014] ∧
    511 < (running .ckVerify [] (unit 0 8 [])).cfg.dataBytes ∧
    (508 % 4 = 0 ∧ 508 + 4 ≤ (running .ckVerify [] (unit 0 8 [])).cfg.dataBytes) := by decide

theorem witness_RegistersReadAsWritten : (unit 1 2 []).busy = false := by decide

theorem witness_SessValidShowsKeyedSlots : 31 < 32 ∧ 1 < (unit 0 0 []).slots.length := by decide

/-- Byte 511 and the aligned word at 508 are the last of the DATA RAM. -/
theorem witness_DataWindowIsLittleEndian : (unit 0 0 []).busy = false ∧
    (508 % 4 = 0 ∧ 508 + 4 ≤ (unit 0 0 []).cfg.dataBytes) ∧
    ((unit 0 0 []).cfg.dataBytes % 4 = 0 ∧ 511 < (unit 0 0 []).cfg.dataBytes) := by decide

theorem witness_OperandsFrozenWhileBusy : (running .obfEnc [] (unit 0 9 [])).busy = true := by decide

/-- Both directions: a dropped write while BUSY = 1, and a command that completes. -/
theorem witness_HazardNeedsBusyAndForbiddenAccess : (running .obfEnc [] (unit 0 9 [])).haz = false ∧
    (running .obfEnc [] (unit 0 9 [])).busy = true ∧
    (Access.write 32 0x00C 5).hazardous (running .obfEnc [] (unit 0 9 [])).cfg.dataBytes = true ∧
    view (exec .obfEnc (unit 0 9 [])) State.haz = some false := by decide

/-- Steps that set HAZ, and that clear it by a STATUS write and by a reset. -/
theorem witness_HazardNeedsBusyAndForbiddenAccess_step :
    let s := running .obfEnc [.access (.write 32 0x00C 5)] (unit 0 9 [])
    let q := { unit 0 9 [] with haz := true, inbox := [.access (.write 32 0x004 0x8)] }
    (s.haz = false ∧ view (step s) State.haz = some true) ∧ (q.haz = true ∧ view (step q) State.haz = some false) ∧
    view (step { q with inbox := [.reset] }) State.haz = some false := by decide

theorem witness_ReadsHaveNoSideEffect :
    (route (unit 0 0 []).cfg.dataBytes 8 0x11FF = .ok (.ramByte 511) ∧ (unit 0 0 []).busy = false) ∧
    (route (running .ckVerify [] (unit 0 0 [])).cfg.dataBytes 32 0x018 = .ok (.reg .sessValid) ∧
      (running .ckVerify [] (unit 0 0 [])).busy = true) := by decide

theorem witness_InterruptFollowsDoneAndIe :
    view (exec .ckVerify { unit 0 4 [] with ie := true }) State.irq = some true ∧ (0x2 : Word).getLsbD 1 = true ∧
    (unit 0 0 []).busy = false ∧ (0xFFFFFFFE : Word).getLsbD 0 = false := by decide

/-- An ill-formed word at the engine's default turn, and a step that clears DONE by an issue of the host program. -/
theorem witness_InterruptFollowsDoneAndIe_step :
    let s := { (unit 0 0 []).inFlight 0 with ie := true }
    let q := { unit 0 0 [] with done := true, host := ⟨[.plain (.issue .ckVerify)], 1, [], [], false⟩ }
    (s.busy = true ∧ s.nextEvent = .engine ∧ view (step s) State.irq = some true) ∧
    (q.done = true ∧ view (step q) State.done = some false ∧ q.nextAccess = some (.write 32 0x008 6)) := by decide

/-- Each clause: a reset, an accepted write to CMD, a write dropped by BUSY, a completion. -/
theorem witness_CmdHoldsLastIssuedWord :
    let s := { unit 0 0 [] with inbox := [.access (.write 32 0x008 0x14)] }
    let q := running .obfEnc [.access (.write 32 0x008 0x14)] (unit 0 9 [])
    (s.nextAccess = some (.write 32 0x008 0x14) ∧ s.busy = false ∧ view (step s) State.cmd = some 0x14) ∧
    (q.nextEvent ≠ .reset ∧ q.busy = true ∧ view (step q) State.cmd = some 8) ∧
    { q with inbox := [.reset] }.nextEvent = .reset ∧
    ({ q with inbox := [] }.nextAccess = none ∧ view (step { q with inbox := [] }) State.cmd = some 8) := by decide

/-- The last slot of a two-slot unit, free. -/
theorem witness_SessInitfKeysSlot :
    let s := { unit 0 0 [] with slots := [⟨true, [1]⟩, Slot.free] }
    (1 : BitVec 4).toNat < s.slots.length ∧ (s.slotAt 1).valid = false := by decide

theorem witness_ResetInputClearsTheUnit : (running .ckVerify [.reset] (unit 0 8 [])).inbox = .reset :: [] := by decide

theorem witness_ResetStateReadsZero : 0x018 ∈ [0x000, 0x004, 0x008, 0x00C, 0x010, 0x014, 0x018] := by decide

/-- Lines in hand, and with none in hand the last program line and the first line of a RUN. -/
theorem witness_HostIssueAndPollLines :
    let s := { unit 0 0 [] with inbox := [.host], host := { looping with todo := [.issue (.bcEnc 1), .halt] } }
    let q := { unit 0 0 [] with inbox := [.host], host := ⟨[.run .modDesc, .plain .poll], 2, [], [], false⟩ }
    (s.inbox = .host :: [] ∧ s.host.halted = false ∧ s.host.todo = .issue (.bcEnc 1) :: [.halt]) ∧
    (q.inbox = .host :: [] ∧ q.host.halted = false ∧ q.host.todo = [] ∧ 1 ≤ q.host.line ∧
      q.host.program[q.host.line - 1]? = some (.plain .poll) ∧ (ProgramLine.plain .poll).expand.1 = .poll) ∧
    q.host.program[0]? = some (.run .modDesc) ∧ (ProgramLine.run .modDesc).expand.1 = .issue .modDesc := by decide

/-- Each line form as the next line; a jump to the first and to the last line; a halted host and one past its program. -/
theorem witness_HostLinesDoWhatTheySay :
    let at_ := fun l => ({ looping with todo := [l] } : HostAgent)
    (at_ (.w32 0x00C 5)).fetch = some (.w32 0x00C 5, looping) ∧ (at_ (.w8 0x1000 5)).fetch = some (.w8 0x1000 5, looping) ∧
    (at_ (.r32 1 0x004)).fetch = some (.r32 1 0x004, looping) ∧ (at_ (.goto 1)).fetch = some (.goto 1, looping) ∧
    looping.fetch = some (.goto 2, { looping with line := 2 }) ∧ 2 ≤ looping.program.length ∧
    ((at_ (.ifSet 1 0 1)).fetch = some (.ifSet 1 0 1, looping) ∧ looping.var 1 &&& 0 = 0) ∧
    ((at_ (.ifClear 1 0 2)).fetch = some (.ifClear 1 0 2, looping)) ∧
    ({ looping with vars := [(1, 4)] }.var 1 &&& 4 ≠ 0) ∧ (at_ .halt).fetch = some (.halt, looping) ∧
    { looping with halted := true }.halted = true ∧ ¬ (1 ≤ 3 ∧ 3 ≤ looping.program.length) := by
  refine ⟨by decide, by decide, by decide, by decide, by decide, by decide, ⟨by decide, by simp⟩, by decide, by decide,
    by decide, by decide, by decide⟩

end Sys2Proof.Tests
end

/-! PROOFS. The scope of the unit (00_scope.md): every step keeps the parameters of R6 and the invariant `State.Inv`, and
reset establishes it. -/

namespace Sys2Proof

/-- A word that decodes is the command word of what it decodes to: decode reads every bit (30_encoding.md R80, R85). -/
theorem encode_of_decode {n : Nat} {v : Word} {i : Instr} (h : decode n v = .ok i) : encode i = v := by
  obtain ⟨hr0, hr1, hop⟩ := decodeRow_ok (decode_ok.1 h).1
  obtain ⟨hi, hslot, -⟩ := decodeOp_ok hop
  obtain ⟨er1, er0, eop, eslot⟩ := encode_fields i
  exact word_ext (eop.trans hi) (er0.trans hr0.symm) (eslot.trans hslot) (er1.trans hr1.symm)

/-- The parameters of the unit as built are in the ranges of 00_scope.md R6. -/
theorem Config.params_legal : Config.params.legal := by
  have hdata : Config.params.dataBytes = Config.dataBytesDraw % 262113 * 4 + 128 := rfl
  have hkey : Config.params.keyMaxBytes = Config.keyMaxDraw % (Config.params.dataBytes - 15) + 16 := rfl
  have hfallback : Config.params.fallbackKey.length = 16 := by simp [Config.params, Config.fallbackKey]
  have hdraw : Config.dataBytesDraw % 262113 < 262113 := Nat.mod_lt _ (by decide)
  have hkdraw : Config.keyMaxDraw % (Config.params.dataBytes - 15) < Config.params.dataBytes - 15 :=
    Nat.mod_lt _ (by omega)
  exact ⟨by omega, by omega, by omega, by omega, by omega, hfallback⟩

/-- NUM_SESSIONS of the unit as built is in the range of R6. -/
theorem Config.numSessions_legal : 1 ≤ Config.numSessions ∧ Config.numSessions ≤ 16 := by
  unfold Config.numSessions
  omega

end Sys2Proof

namespace Sys2Proof.Machine

/-! ## What a completion and an access leave of the rest of the state -/

theorem Completed.cfg {i : Instr} {s t : State} (c : Completed i s t) : t.cfg = s.cfg := by rw [c.shape]

theorem Completed.busy {i : Instr} {s t : State} (c : Completed i s t) : t.busy = false := by rw [c.shape]

theorem Completed.cmd {i : Instr} {s t : State} (c : Completed i s t) : t.cmd = s.cmd := by rw [c.shape]

theorem ported_performed (s : State) (a : Option Access) : Ported s (s.performed a) := by
  cases a with
  | none => exact .aside rfl
  | some a => exact ported_hostAccess a s

/-! ## The parameters -/

/-- No move writes a parameter (00_scope.md R6). -/
theorem Moved.params {s t : State} {e : Event} (h : Moved s e t) :
    t.cfg = s.cfg ∧ t.slots.length = s.slots.length := by
  cases h with
  | completed _ _ hx =>
    have c := completed_of_exec hx
    exact ⟨c.cfg, c.slots_length⟩
  | bad => exact ⟨rfl, rfl⟩
  | idle => exact ⟨rfl, rfl⟩
  | host ht =>
    have p := ported_performed s (s.host.fetch.bind fun p => p.1.access)
    rw [ht]
    exact ⟨p.cfg, congrArg List.length p.slots⟩
  | @access a =>
    have p := ported_hostAccess a s
    exact ⟨p.cfg, congrArg List.length p.slots⟩
  | reset => exact ⟨rfl, by simp⟩

/-- Settles O17: the move behind the step acts on a state with the same parameters. -/
theorem parametersNeverChange : Obligations.ParametersNeverChange :=
  fun _ _ h => (step_next h).params

/-! ## The invariant -/

/-- A cleared unit with legal parameters satisfies the invariant, whatever the draw of its DATA RAM. -/
theorem State.Inv.ofCleared {s : State} {n : Nat} (hcells : s.ram.cells = [])
    (hslots : s.slots = List.replicate n Slot.free) (hbusy : s.busy = false) (hck : s.ckOk = false)
    (hcfg : s.cfg.legal) (hn : 1 ≤ n ∧ n ≤ 16) : s.Inv where
  canonical := by simp [Memory.wf, hcells]
  inRange := by simp [hcells]
  params := hcfg
  sessions := by simpa [State.numSessions, hslots] using hn
  keys x hx hv := by
    have hfree : x = Slot.free := List.eq_of_mem_replicate (hslots ▸ hx)
    simp [hfree, Slot.free] at hv
  busyDone h := by simp [hbusy] at h
  busyResult h := by simp [hbusy] at h
  ckOkVerify h := by simp [hck] at h

/-- Settles O14. -/
theorem resetSatisfiesInvariant : Obligations.ResetSatisfiesInvariant :=
  .ofCleared rfl rfl rfl rfl Config.params_legal Config.numSessions_legal

/-- The reset input restores the invariant from any state with legal parameters (70_reset_and_hazards.md R230). -/
theorem State.Inv.resetUnit {s : State} (inv : s.Inv) : s.resetUnit.Inv :=
  .ofCleared rfl s.resetUnit_slots rfl rfl inv.params inv.sessions

/-- The invariant speaks of the unit, not of the host agent and the list of moves. -/
theorem State.Inv.beside {s : State} (inv : s.Inv) (h : HostAgent) (moves : List Event) :
    { s with host := h, inbox := moves }.Inv := { inv with }

/-- An error completion ends BUSY and leaves CK_OK = 0 (60_exceptions.md R202). -/
theorem State.Inv.raise {s : State} (inv : s.Inv) (code : Result) : (s.complete code false).Inv :=
  { inv with
    busyDone := fun h => nomatch h
    busyResult := fun h => nomatch h
    ckOkVerify := fun h => nomatch h }

/-- A completed command leaves keyed slots with legal keys: a slot that it keys gets FALLBACK_KEY, whose 16 bytes R6
allows, or a key of the length SESS.INITK accepts (10_state.md R30). -/
theorem Completed.keys {i : Instr} {s t : State} (c : Completed i s t) (inv : s.Inv) :
    ∀ x ∈ t.slots, x.valid = true → 1 ≤ x.key.length ∧ x.key.length ≤ s.cfg.keyMaxBytes := by
  intro x hx hv
  rcases c.slots with hsame | ⟨slot, y, -, hset, hkeyed, -⟩
  · exact inv.keys x (hsame ▸ hx) hv
  · rw [hset] at hx
    rcases List.mem_or_eq_of_mem_set hx with hold | rfl
    · exact inv.keys x hold hv
    · rcases (hkeyed hv).2 with hfallback | hlen
      · obtain ⟨-, -, -, hmin, -, h16⟩ := inv.params
        rw [hfallback]
        omega
      · exact hlen

/-- A completed command keeps the invariant when CMD holds its command word. -/
theorem State.Inv.completed {s t : State} {i : Instr} (inv : s.Inv) (hcmd : s.cmd = encode i) (c : Completed i s t) :
    t.Inv where
  canonical := c.ram.wf inv.canonical
  inRange := by
    rw [c.cfg]
    exact c.ram.below inv.inRange
  params := c.cfg ▸ inv.params
  sessions := by
    simp only [State.numSessions, c.slots_length]
    exact inv.sessions
  keys := by
    rw [c.cfg]
    exact c.keys inv
  busyDone h := by simp [c.busy] at h
  busyResult h := by simp [c.busy] at h
  ckOkVerify h := by
    obtain ⟨rfl, hok⟩ := c.ckOk h
    exact ⟨c.cmd.trans hcmd, hok⟩

/-- A bus access keeps the invariant: it moves the lifecycle only by clearing DONE or by an issue, which clears DONE,
RESULT and CK_OK (10_state.md R24, 60_exceptions.md R200). -/
theorem State.Inv.ported {s t : State} (inv : s.Inv) (p : Ported s t) : t.Inv where
  canonical := p.ram.wf inv.canonical
  inRange := by
    rw [p.cfg]
    exact p.ram.below inv.inRange
  params := p.cfg ▸ inv.params
  sessions := by
    simp only [State.numSessions, p.slots]
    exact inv.sessions
  keys := by
    rw [p.slots, p.cfg]
    exact inv.keys
  busyDone hb := by
    rcases p.life with ⟨hbusy, -, -, -, hdone⟩ | ⟨-, -, hdone, -, -⟩
    · exact Bool.eq_false_iff.2 (mt hdone (by simp [inv.busyDone (hbusy ▸ hb)]))
    · exact hdone
  busyResult hb := by
    rcases p.life with ⟨hbusy, -, hresult, hck, -⟩ | ⟨-, -, -, hresult, hck⟩
    · rw [hresult, hck]
      exact inv.busyResult (hbusy ▸ hb)
    · exact ⟨hresult, hck⟩
  ckOkVerify ht := by
    rcases p.life with ⟨-, hcmd, hresult, hck, -⟩ | ⟨-, -, -, -, hck⟩
    · rw [hcmd, hresult]
      exact inv.ckOkVerify (hck ▸ ht)
    · simp [hck] at ht

/-- Every move keeps the invariant. -/
theorem Moved.inv {s t : State} {e : Event} (h : Moved s e t) (inv : s.Inv) : t.Inv := by
  cases h with
  | completed _ hd hx => exact inv.completed (encode_of_decode hd).symm (completed_of_exec hx)
  | bad => exact inv.raise .errBadCmd
  | idle => exact inv
  | host ht =>
    have hport := inv.ported (ported_performed s (s.host.fetch.bind fun p => p.1.access))
    rw [ht]
    exact hport.beside _ _
  | access => exact inv.ported (ported_hostAccess _ s)
  | reset => exact inv.resetUnit

/-- Settles O15: the step takes a move off the list, which the invariant does not see, and makes it. -/
theorem stepKeepsInvariant : Obligations.StepKeepsInvariant :=
  fun s _ inv h => (step_next h).inv (inv.beside s.host s.inbox.tail)

end Sys2Proof.Machine

/-! PROOFS. The unit's state (10_state.md): what the registers read and take, which accesses set and clear HAZ, when CMD
changes, and what the commands and steps leave of the slot file and of the form of the DATA RAM. -/

namespace Sys2Proof.Machine

/-! ## The canonical form of the DATA RAM -/

/-- Every move keeps the written bytes in canonical form, State.Inv or not. -/
theorem Moved.canonical {s t : State} {e : Event} (h : Moved s e t) (hwf : s.ram.cells.wf) : t.ram.cells.wf := by
  cases h with
  | completed _ _ hx => exact (completed_of_exec hx).ram.wf hwf
  | bad => exact hwf
  | idle => exact hwf
  | host ht =>
    rw [ht]
    exact (ported_performed s _).ram.wf hwf
  | access => exact (ported_hostAccess _ s).ram.wf hwf
  | reset => exact List.Pairwise.nil

/-- Settles O16: the move behind the step acts on a state with the same DATA RAM. -/
theorem stepKeepsMemoryCanonical : Obligations.StepKeepsMemoryCanonical :=
  fun _ _ hwf h => (step_next h).canonical hwf

/-! ## The slot file -/

/-- A command changes no slot but the one it names (10_state.md R30). -/
theorem Completed.slot_unnamed {i : Instr} {s t : State} (c : Completed i s t) {j : Nat}
    (hj : ∀ slot, i.slot? = some slot → slot.toNat ≠ j) : t.slots[j]? = s.slots[j]? := by
  rcases c.slots with hsame | ⟨slot, x, hslot, hset, -⟩
  · rw [hsame]
  · rw [hset, List.getElem?_set_ne (hj slot hslot)]

/-- A command that makes two checks and then answers a state with the same slot file keeps the slot file: so do all the
commands but SESS.*. -/
theorem slots_of_checked {s t u : State} {c d : Prop} [Decidable c] [Decidable d] {e f : Result}
    (hu : u.slots = s.slots) (h : (if c then s.raise e else if d then s.raise f else .next u) = .next t) :
    t.slots = s.slots := by
  split at h
  · cases h
    rfl
  · split at h <;> cases h
    · rfl
    · exact hu

/-- Only the session commands change a slot (40_session.md R101). -/
theorem exec_slots_of_not_session {i : Instr} {s t : State} (h : exec i s = .next t)
    (hi : ∀ slot, i ≠ .sessInitk slot ∧ i ≠ .sessInitf slot ∧ i ≠ .sessClose slot) : t.slots = s.slots := by
  cases i with
  | sessInitk slot | sessInitf slot | sessClose slot => simpa using hi slot
  | bcEnc | bcDec | ckVerify | ckAppend | obfEnc | obfDec | modDesc => exact slots_of_checked (by rfl) h

/-- Settles O24. -/
theorem commandsTouchOnlyTheirSlot : Obligations.CommandsTouchOnlyTheirSlot :=
  fun _ _ _ h => ⟨fun _ hj => (completed_of_exec h).slot_unnamed hj, exec_slots_of_not_session h⟩

/-! ## What the registers read -/

/-- A read of a register answers its value. -/
theorem hostAccess_readReg_rdata (s : State) {off : Nat} {r : Reg} (h : regAt off = some r) :
    (hostAccess (.read 32 off) s).rdata = s.readReg r := by
  rw [hostAccess_readReg h]

/-- CTRL reads IE in bit 0 and 0 above (10_state.md R23). -/
theorem State.ctrlWord_getLsbD (s : State) (i : Nat) : s.ctrlWord.getLsbD i = (decide (i = 0) && s.ie) := by
  have hword : s.ctrlWord.getLsbD i = ((0 : BitVec 31) ++ BitVec.ofBool s.ie).getLsbD i := rfl
  rw [hword, BitVec.getLsbD_append]
  cases i <;> simp

/-- Where the fields of STATUS read (10_state.md R24). -/
theorem State.statusWord_getLsbD (s : State) (i : Nat) :
    s.statusWord.getLsbD i =
      if i = 0 then s.busy else if i = 1 then s.done else if i = 2 then s.ckOk else if i = 3 then s.haz
      else s.result.code.getLsbD (i - 4) := by
  have hword : s.statusWord.getLsbD i = ((0 : BitVec 24) ++ s.result.code ++ BitVec.ofBool s.haz ++
      BitVec.ofBool s.ckOk ++ BitVec.ofBool s.done ++ BitVec.ofBool s.busy).getLsbD i := rfl
  rw [hword]
  simp only [BitVec.getLsbD_append]
  match i with
  | 0 | 1 | 2 | 3 => simp
  | i + 4 =>
    by_cases h : i < 4
    · simp [h]
    · simp [h, BitVec.getLsbD_of_ge s.result.code i (by omega)]

/-- STATUS reads the result code from bit 4 up. -/
theorem State.statusWord_getLsbD_add (s : State) (i : Nat) :
    s.statusWord.getLsbD (4 + i) = s.result.code.getLsbD i := by
  rw [State.statusWord_getLsbD, Nat.add_sub_cancel_left]
  repeat rw [if_neg (by omega)]

/-- STATUS reads the result code in bits 7:4. -/
theorem State.statusWord_result (s : State) : s.statusWord.extractLsb' 4 4 = s.result.code := by
  apply BitVec.eq_of_getLsbD_eq
  intro i hi
  simp only [BitVec.getLsbD_extractLsb', hi, decide_true, Bool.true_and, State.statusWord_getLsbD_add]

/-- STATUS reads 0 above bit 7. -/
theorem State.statusWord_reserved (s : State) : s.statusWord.extractLsb' 8 24 = 0 := by
  apply BitVec.eq_of_getLsbD_eq
  intro i hi
  have hbit : s.statusWord.getLsbD (8 + i) = s.result.code.getLsbD (4 + i) := by
    rw [← State.statusWord_getLsbD_add, ← Nat.add_assoc]
  rw [BitVec.getLsbD_extractLsb', hbit, BitVec.getLsbD_of_ge _ _ (by omega)]
  simp

/-- A file of free slots shows no keyed slot (R29). -/
theorem validBits_replicate_free (n : Nat) : validBits (List.replicate n Slot.free) = 0 := by
  induction n with
  | zero => rfl
  | succ n ih =>
    have hfree : Slot.free.valid = false := rfl
    simp [List.replicate_succ, validBits, ih, hfree]

/-! ## Register writes and reads -/

/-- A write to CMD with BUSY = 0 issues (R200). -/
theorem hostAccess_issue {s : State} (h : s.busy = false) (v : Word) :
    hostAccess (.write 32 0x008 v) s = s.issue v :=
  (hostAccess_writeReg (r := .cmd) rfl).trans (if_neg (by simp [h]))

/-- Settles O43: with BUSY = 0 the branch of `State.writeReg` that drops a write is not taken. -/
theorem registersReadAsWritten : Obligations.RegistersReadAsWritten := by
  refine ⟨fun s v hb => ?_, fun s => hostAccess_readReg_rdata s (r := .cmd) rfl⟩
  have hidle : ¬ s.busy = true := by simp [hb]
  have hoffset : hostAccess (.write 32 0x00C v) s = { s with offset := v } :=
    (hostAccess_writeReg (r := .offset) rfl).trans (if_neg hidle)
  have hsize : hostAccess (.write 32 0x010 v) s = { s with size := v } :=
    (hostAccess_writeReg (r := .size) rfl).trans (if_neg hidle)
  have hobfKey : hostAccess (.write 32 0x014 v) s = { s with obfKey := v } :=
    (hostAccess_writeReg (r := .obfKey) rfl).trans (if_neg hidle)
  refine ⟨hoffset, hsize, hobfKey, hostAccess_writeReg (r := .sessValid) rfl, ?_, ?_, ?_, ?_⟩
  · rw [hoffset]
    exact hostAccess_readReg_rdata _ (r := .offset) rfl
  · rw [hsize]
    exact hostAccess_readReg_rdata _ (r := .size) rfl
  · rw [hobfKey]
    exact hostAccess_readReg_rdata _ (r := .obfKey) rfl
  · rw [hostAccess_issue hb]
    exact hostAccess_readReg_rdata _ (r := .cmd) rfl

/-- Settles O44: the read of CTRL and v &&& 1 agree bit by bit. -/
theorem controlWriteSetsOnlyIe : Obligations.ControlWriteSetsOnlyIe := by
  refine ⟨fun s v => ?_, rfl⟩
  have hwrite : hostAccess (.write 32 0x000 v) s = s.writeCtrl v := hostAccess_writeReg (r := .ctrl) rfl
  refine ⟨hwrite, ?_⟩
  rw [hwrite, hostAccess_readReg_rdata _ (r := .ctrl) rfl]
  apply BitVec.eq_of_getLsbD_eq
  intro i _
  rw [State.readReg, State.ctrlWord_getLsbD, State.writeCtrl_ie]
  cases i <;> simp

/-- Settles O45. -/
theorem statusWordAndWrite : Obligations.StatusWordAndWrite := by
  intro s v
  have hread : (hostAccess (.read 32 0x004) s).rdata = s.statusWord :=
    hostAccess_readReg_rdata s (r := .status) rfl
  have hwrite : hostAccess (.write 32 0x004 v) s = s.writeStatus v := hostAccess_writeReg (r := .status) rfl
  have hbit := s.statusWord_getLsbD
  rw [hread, hwrite]
  exact ⟨⟨hbit 0, hbit 1, hbit 2, hbit 3, s.statusWord_result, s.statusWord_reserved⟩, s.writeStatus_eq v,
    by cases s.result <;> rfl⟩

/-- Settles O46. -/
theorem sessValidShowsKeyedSlots : Obligations.SessValidShowsKeyedSlots := by
  refine ⟨fun s j hj => ?_, fun s v => hostAccess_writeReg (r := .sessValid) rfl, ?_⟩
  · rw [hostAccess_readReg_rdata s (r := .sessValid) rfl]
    exact validBits_getLsbD s.slots j hj
  · rw [hostAccess_readReg_rdata _ (r := .sessValid) rfl]
    exact validBits_replicate_free _

/-- Every register reads 0 in the reset state (70_reset_and_hazards.md R230). -/
theorem State.readReg_reset (r : Reg) : State.reset.readReg r = 0 := by
  cases r with
  | sessValid => exact validBits_replicate_free _
  | ctrl | status | cmd | offset | size | obfKey => rfl

/-- Settles O53: the host has no line, so its turn leaves the reset state. -/
theorem resetStateReadsZero : Obligations.ResetStateReadsZero := by
  refine ⟨fun off hoff => ?_, rfl, fun _ => rfl, rfl⟩
  have hreg : ∃ r, regAt off = some r := by
    fin_cases hoff <;> exact ⟨_, rfl⟩
  obtain ⟨r, hr⟩ := hreg
  rw [hostAccess_readReg_rdata _ hr, State.readReg_reset]

/-! ## HAZ -/

/-- An accepted read sets HAZ exactly when BUSY = 1 and R237 forbids it, and never clears it. -/
theorem State.readTarget_haz (s : State) (t : Target) :
    (s.readTarget t).haz = (s.haz || (s.busy && t.hazardous false)) := by
  cases t with
  | reg r => cases r <;> simp [State.readTarget, Target.hazardous]
  | ramByte a | ramWord a => cases hb : s.busy <;> simp [State.readTarget, Target.hazardous, hb]

/-- An accepted write that finds HAZ = 0 sets it exactly when BUSY = 1 and R237 forbids the write. -/
theorem State.writeTarget_haz {s : State} (h : s.haz = false) (t : Target) (v : Word) :
    (s.writeTarget t v).haz = (s.busy && t.hazardous true) := by
  cases t with
  | reg r =>
    cases r with
    | ctrl | status | sessValid => simp [State.writeTarget, State.writeReg, Target.hazardous, h]
    | cmd | offset | size | obfKey =>
      cases hb : s.busy <;> simp [State.writeTarget, State.writeReg, Target.hazardous, h, hb]
  | ramByte a | ramWord a => cases hb : s.busy <;> simp [State.writeTarget, Target.hazardous, h, hb]

/-- An access that finds HAZ = 0 sets it exactly when BUSY = 1 and R237 forbids the access; a bus error does not. -/
theorem hostAccess_haz {s : State} (h : s.haz = false) (a : Access) :
    (hostAccess a s).haz = (s.busy && a.hazardous s.cfg.dataBytes) := by
  cases a with
  | read bits off =>
    cases hr : route s.cfg.dataBytes bits off with
    | ok t => simp [hostAccess, Access.hazardous, Access.routed, hr, State.readTarget_haz, h]
    | error f => simp [hostAccess, Access.hazardous, Access.routed, hr, h]
  | write bits off v =>
    cases hr : route s.cfg.dataBytes bits off with
    | ok t => simp [hostAccess, Access.hazardous, Access.routed, hr, State.writeTarget_haz h]
    | error f => simp [hostAccess, Access.hazardous, Access.routed, hr, h]

/-- An access clears HAZ only as a 32-bit write to STATUS with bit 3 = 1 (10_state.md R24). -/
theorem hostAccess_clears_haz {s : State} {a : Access} (h : s.haz = true) (ht : (hostAccess a s).haz = false) :
    ∃ v : Word, a = .write 32 0x004 v ∧ v.getLsbD 3 = true := by
  rcases hostAccess_cases a s with ⟨v, rfl, hs⟩ | ⟨v, -, -, hs⟩ | ⟨-, -, hkeep, -⟩
  · refine ⟨v, rfl, ?_⟩
    simpa [hs, h] using ht
  · simp [hs, h] at ht
  · simp [hkeep h] at ht

theorem Completed.haz {i : Instr} {s t : State} (c : Completed i s t) : t.haz = s.haz := by rw [c.shape]

/-- A step that raises HAZ makes a forbidden access while BUSY = 1. -/
theorem Moved.sets_haz {s t : State} (h : Moved s.popped s.nextEvent t) (hs : s.haz = false) (ht : t.haz = true) :
    s.busy = true ∧ ∃ a, s.nextAccess = some a ∧ a.hazardous s.cfg.dataBytes = true := by
  rcases h.cases_access with ⟨a, ha, hacc⟩ | ⟨-, hreset⟩ | ⟨-, -, -, -, hkeep, -⟩ | ⟨-, -, hhost⟩
  · rw [hacc] at ht
    have hset : (s.popped.busy && a.hazardous s.popped.cfg.dataBytes) = true :=
      (hostAccess_haz (s := s.popped) hs a).symm.trans ht
    obtain ⟨hbusy, hhaz⟩ := Bool.and_eq_true_iff.1 hset
    exact ⟨hbusy, a, ha, hhaz⟩
  · simp [hreset] at ht
  · simp [hkeep, hs] at ht
  · have hkeep : t.haz = s.haz := by
      rw [hhost]
      rfl
    simp [hkeep, hs] at ht

/-- A step that clears HAZ is a reset or makes a STATUS write with bit 3 = 1. -/
theorem Moved.clears_haz {s t : State} (h : Moved s.popped s.nextEvent t) (hs : s.haz = true) (ht : t.haz = false) :
    s.nextEvent = .reset ∨ ∃ v : Word, s.nextAccess = some (.write 32 0x004 v) ∧ v.getLsbD 3 = true := by
  rcases h.cases_access with ⟨a, ha, hacc⟩ | ⟨hreset, -⟩ | ⟨-, -, -, -, hkeep, -⟩ | ⟨-, -, hhost⟩
  · rw [hacc] at ht
    obtain ⟨v, rfl, hv⟩ := hostAccess_clears_haz (s := s.popped) hs ht
    exact .inr ⟨v, ha, hv⟩
  · exact .inl hreset
  · simp [hkeep, hs] at ht
  · have hkeep : t.haz = s.haz := by
      rw [hhost]
      rfl
    simp [hkeep, hs] at ht

/-- Settles O49: a command's completion record has no HAZ, and a step reaches HAZ by its access or a reset only. -/
theorem hazardNeedsBusyAndForbiddenAccess : Obligations.HazardNeedsBusyAndForbiddenAccess := by
  refine ⟨fun a s h => ?_, fun _ _ _ h => (completed_of_exec h).haz, fun _ _ h => ?_⟩
  · rw [hostAccess_haz h, Bool.and_eq_true]
  · exact ⟨(step_next h).sets_haz, (step_next h).clears_haz⟩

/-! ## CMD -/

/-- A reset and the engine's move make no bus access. -/
theorem nextAccess_of_not_access {s : State} (h : s.nextEvent = .reset ∨ s.nextEvent = .engine) :
    s.nextAccess = none := by
  unfold State.nextAccess
  rcases h with h | h <;> rw [h]

/-- An access writes CMD only as an issue, which needs BUSY = 0 (10_state.md R25, 60_exceptions.md R200). -/
theorem hostAccess_cmd_of_not_issue {s : State} {a : Access} (h : ∀ v : Word, a = .write 32 0x008 v → s.busy = true) :
    (hostAccess a s).cmd = s.cmd := by
  rcases hostAccess_cases a s with ⟨v, -, hs⟩ | ⟨v, ha, hidle, -⟩ | ⟨hcmd, -⟩
  · rw [hs, State.writeStatus_cmd]
  · simp [h v ha] at hidle
  · exact hcmd

/-- Settles O56, by what the step does: an access, a reset, a completion, or nothing to the unit. -/
theorem cmdHoldsLastIssuedWord : Obligations.CmdHoldsLastIssuedWord := by
  intro s t h
  rcases (step_next h).cases_access with ⟨a, ha, hacc⟩ | ⟨hreset, ht⟩ | ⟨heng, -, -, -, -, hcmd, -⟩ | ⟨hnone, hne, ht⟩
  · refine ⟨fun hr => ?_, fun v hv hidle => ?_, fun _ hno => ?_⟩
    · simp [nextAccess_of_not_access (.inl hr)] at ha
    · obtain rfl : a = .write 32 0x008 v := Option.some.inj (ha.symm.trans hv)
      rw [hacc, hostAccess_issue (s := s.popped) hidle]
      exact ⟨rfl, rfl⟩
    · rw [hacc]
      exact hostAccess_cmd_of_not_issue (s := s.popped) fun v hv => hno v (ha.trans (congrArg some hv))
  · refine ⟨fun _ => by rw [ht, State.resetUnit_cmd], fun v hv => ?_, fun hne => absurd hreset hne⟩
    simp [nextAccess_of_not_access (.inl hreset)] at hv
  · refine ⟨fun hr => by simp [hr] at heng, fun v hv => ?_, fun _ _ => hcmd⟩
    simp [nextAccess_of_not_access (.inr heng)] at hv
  · exact ⟨fun hr => absurd hr hne, fun v hv => by simp [hnone] at hv, fun _ _ => by rw [ht]; rfl⟩

end Sys2Proof.Machine

/-! PROOFS. The DATA RAM and the host port (20_memory.md): which accesses the port accepts and what each does, at BUSY = 0
and BUSY = 1, and that a command neither writes nor reads a DATA byte outside its window. -/

namespace Sys2Proof.Machine

/-! ## The address map -/

/-- The address map as a table (20_memory.md R61, R64): the accepted widths and offsets and where each goes. -/
inductive Routed (n : Nat) : (bits off : Nat) → Target → Prop
  | reg {off r} : regAt off = some r → Routed n 32 off (.reg r)
  | ramByte {a} : a < n → Routed n 8 (0x1000 + a) (.ramByte a)
  | ramWord {a} : a % 4 = 0 → a + 4 ≤ n → Routed n 32 (0x1000 + a) (.ramWord a)

theorem routed_of_routeReg {n bits off : Nat} {t : Target} (h : routeReg bits off = .ok t) : Routed n bits off t := by
  unfold routeReg at h
  split at h
  · cases h
  · rename_i hbits
    split at h <;> cases h
    rename_i hr
    exact not_not.1 hbits ▸ .reg hr

theorem routed_of_routeRam {n bits a : Nat} {t : Target} (ha : a < n) (h : routeRam n bits a = .ok t) :
    Routed n bits (0x1000 + a) t := by
  unfold routeRam at h
  split at h
  · rename_i hbits
    cases h
    exact hbits ▸ .ramByte ha
  · split at h
    · cases h
    · rename_i hbits
      split at h
      · cases h
      · rename_i h4
        split at h <;> cases h
        rename_i hfit
        exact not_not.1 hbits ▸ .ramWord (not_not.1 h4) hfit

/-- The port accepts exactly the accesses of the table. -/
theorem route_ok_iff {n bits off : Nat} {t : Target} : route n bits off = .ok t ↔ Routed n bits off t := by
  constructor
  · intro h
    unfold route at h
    split at h
    · exact routed_of_routeReg h
    · split at h
      · cases h
      · split at h
        · rename_i hlo hhi
          have hoff : 0x1000 + (off - Config.ramBase) = off := by
            unfold Config.ramBase at *
            omega
          exact hoff ▸ routed_of_routeRam (by omega) h
        · cases h
  · rintro (hr | ha | ⟨h4, ha⟩)
    · exact route_reg n hr
    · exact route_ramByte ha
    · exact route_ramWord h4 ha

/-- The registers stand at the aligned offsets 0x000 to 0x018 (10_state.md R20). -/
theorem regAt_isSome_iff (off : Nat) : (∃ r, regAt off = some r) ↔ off % 4 = 0 ∧ off ≤ 0x018 := by
  constructor
  · rintro ⟨r, hr⟩
    unfold regAt at hr
    split at hr <;> cases hr <;> decide
  · rintro ⟨h4, hle⟩
    obtain ⟨k, rfl⟩ := Nat.dvd_of_mod_eq_zero h4
    have hk : k ≤ 6 := by omega
    interval_cases k <;> exact ⟨_, rfl⟩

/-- The accepted accesses by width and offset, for any DATA_BYTES (R64). -/
theorem route_accepts_iff (n bits off : Nat) :
    (∃ t, route n bits off = .ok t) ↔
      (bits = 32 ∧ off % 4 = 0 ∧ off ≤ 0x018) ∨
      (bits = 8 ∧ 0x1000 ≤ off ∧ off < 0x1000 + n) ∨
      (bits = 32 ∧ off % 4 = 0 ∧ 0x1000 ≤ off ∧ off + 4 ≤ 0x1000 + n) := by
  simp only [route_ok_iff]
  constructor
  · rintro ⟨t, hr | ha | ⟨h4, ha⟩⟩
    · exact .inl ⟨rfl, (regAt_isSome_iff off).1 ⟨_, hr⟩⟩
    · exact .inr (.inl ⟨rfl, by omega, by omega⟩)
    · exact .inr (.inr ⟨rfl, by omega, by omega, by omega⟩)
  · rintro (⟨rfl, hreg⟩ | ⟨rfl, hlo, hhi⟩ | ⟨rfl, h4, hlo, hhi⟩)
    · obtain ⟨r, hr⟩ := (regAt_isSome_iff off).2 hreg
      exact ⟨_, .reg hr⟩
    · obtain ⟨a, rfl⟩ := Nat.exists_eq_add_of_le hlo
      exact ⟨_, .ramByte (by omega)⟩
    · obtain ⟨a, rfl⟩ := Nat.exists_eq_add_of_le hlo
      exact ⟨_, .ramWord (by omega) (by omega)⟩

/-! ## Bus errors -/

/-- The recorded bus error is the first one (R67). -/
theorem State.busError_eq (s : State) (f : Fault) :
    s.busError f = { s with hostFault := some (s.hostFault.getD f) } := by
  unfold State.busError
  cases s.hostFault <;> rfl

theorem hostAccess_write_error {s : State} {bits off : Nat} {f : Fault} (v : Word)
    (h : route s.cfg.dataBytes bits off = .error f) :
    hostAccess (.write bits off v) s = { s with hostFault := some (s.hostFault.getD f) } := by
  simp only [hostAccess, h, State.busError_eq]

theorem hostAccess_read_error {s : State} {bits off : Nat} {f : Fault}
    (h : route s.cfg.dataBytes bits off = .error f) :
    hostAccess (.read bits off) s = { s with
      hostFault := some (s.hostFault.getD f), rdata := Config.readDraw s.draws, draws := s.draws + 1 } := by
  simp only [hostAccess, h, State.busError_eq, State.drawRead]

/-- A rejected access changes nothing of the unit, HAZ included, and keeps an earlier record. -/
theorem hostAccess_of_rejected {a : Access} {s : State} {f : Fault} (h : (a.routed s.cfg.dataBytes).2 = .error f) :
    ∃ (g : Fault) (d : Word) (n : Nat), hostAccess a s = { s with hostFault := some g, rdata := d, draws := n } ∧
      ∀ e, s.hostFault = some e → g = e := by
  have hkeep : ∀ e, s.hostFault = some e → s.hostFault.getD f = e := fun e he => by simp [he]
  cases a with
  | read bits off => exact ⟨_, _, _, hostAccess_read_error h, hkeep⟩
  | write bits off v => exact ⟨_, s.rdata, s.draws, hostAccess_write_error v h, hkeep⟩

/-- No move clears a recorded bus error, a reset included (R67, log 7). -/
theorem Moved.hostFault {s t : State} {g : Fault} (h : Moved s.popped s.nextEvent t) (hg : s.hostFault = some g) :
    t.hostFault = some g := by
  rcases h.cases_access with ⟨a, -, hacc⟩ | ⟨-, hreset⟩ | ⟨-, -, -, -, -, -, hkeep⟩ | ⟨-, -, hhost⟩
  · rw [hacc]
    exact hostAccess_hostFault a (s := s.popped) hg
  · rw [hreset, State.resetUnit_hostFault]
    exact hg
  · exact hkeep.trans hg
  · rw [hhost]
    exact hg

/-- Settles O40. An aligned word that starts below a DATA_BYTES that is a multiple of 4 also ends there. -/
theorem acceptedHostAccesses : Obligations.AcceptedHostAccesses := by
  refine ⟨fun n bits off hn => ?_, fun _ _ _ => hostAccess_of_rejected, fun _ _ _ h => (step_next h).hostFault⟩
  rw [route_accepts_iff]
  refine or_congr_right (or_congr_right (and_congr_right fun _ => and_congr_right fun h4 => and_congr_right fun _ => ?_))
  omega

/-- An access that the table does not accept is a bus error. -/
theorem route_rejects {n bits off : Nat} (h : ¬ ∃ t, route n bits off = .ok t) : ∃ f, route n bits off = .error f := by
  cases hr : route n bits off with
  | ok t => exact absurd ⟨t, hr⟩ h
  | error f => exact ⟨f, rfl⟩

/-- Settles O41: none of the listed accesses is in the table. -/
theorem busErrorChangesNothing : Obligations.BusErrorChangesNothing := by
  intro s v _ p hp
  have hreject : ¬ ∃ t, route s.cfg.dataBytes p.1 p.2 = .ok t := by
    rw [route_accepts_iff]
    simp only [List.mem_cons, List.not_mem_nil, or_false] at hp
    rcases hp with rfl | rfl | rfl | rfl | rfl | rfl | rfl | rfl | rfl | rfl | rfl <;> omega
  obtain ⟨f, hf⟩ := route_rejects hreject
  exact ⟨⟨_, hostAccess_write_error v hf⟩, _, _, _, hostAccess_read_error hf⟩

/-! ## Accesses while BUSY = 1 -/

/-- Every write that R237 forbids is dropped while BUSY = 1 and sets HAZ (20_memory.md R65). -/
theorem State.writeTarget_busy {s : State} {t : Target} (hb : s.busy = true) (ht : t.hazardous true = true) (v : Word) :
    s.writeTarget t v = { s with haz := true } := by
  cases t with
  | reg r =>
    cases r with
    | ctrl | status | sessValid => cases ht
    | cmd | offset | size | obfKey => exact if_pos hb
  | ramByte a | ramWord a => exact if_pos hb

theorem hostAccess_write_busy {s : State} {bits off : Nat} {t : Target} (hb : s.busy = true)
    (hr : Routed s.cfg.dataBytes bits off t) (ht : t.hazardous true = true) (v : Word) :
    hostAccess (.write bits off v) s = { s with haz := true } := by
  simp only [hostAccess, route_ok_iff.2 hr, State.writeTarget_busy hb ht]

/-- Settles O42, access by access: the dropped writes, the DATA reads that set HAZ, the register reads, and the writes of
CTRL, STATUS and SESS_VALID that BUSY leaves alone. -/
theorem busyHazard : Obligations.BusyHazard := by
  intro s v hb
  refine ⟨fun off hoff => ?_, fun a ha => hostAccess_write_busy hb (.ramByte ha) rfl v,
    fun a h4 ha => hostAccess_write_busy hb (.ramWord h4 ha) rfl v,
    fun a ha => ⟨_, _, (hostAccess_read8 ha).trans (if_pos hb)⟩,
    fun a h4 ha => ⟨_, _, (hostAccess_read32 h4 ha).trans (if_pos hb)⟩,
    hostAccess_readReg (r := .ctrl) rfl, hostAccess_readReg (r := .status) rfl,
    hostAccess_readReg (r := .sessValid) rfl, hostAccess_readReg (r := .cmd) rfl,
    hostAccess_readReg (r := .offset) rfl, hostAccess_readReg (r := .size) rfl,
    hostAccess_readReg (r := .obfKey) rfl, hostAccess_writeReg (r := .ctrl) rfl,
    (hostAccess_writeReg (r := .status) rfl).trans (s.writeStatus_eq v), hostAccess_writeReg (r := .sessValid) rfl⟩
  have hreg : ∃ r, regAt off = some r ∧ (Target.reg r).hazardous true = true := by
    fin_cases hoff <;> exact ⟨_, rfl, rfl⟩
  obtain ⟨r, hr, hz⟩ := hreg
  exact hostAccess_write_busy hb (.reg hr) hz v

/-- Settles O48. -/
theorem operandsFrozenWhileBusy : Obligations.OperandsFrozenWhileBusy := by
  intro a s hb
  have port := ported_hostAccess a s
  obtain ⟨hbusy, hcmd, hoffset, hsize, hobfKey, hram⟩ := port.whileBusy hb
  exact ⟨hbusy, hcmd, hoffset, hsize, hobfKey, port.slots, hram, port.cfg⟩

/-! ## Accesses with BUSY = 0 -/

/-- What a target reads as with BUSY = 0 (20_memory.md R63; 10_state.md R23 to R29). -/
def State.readValue (s : State) : Target → Word
  | .reg r => s.readReg r
  | .ramByte a => (s.ram.byte a).zeroExtend 32
  | .ramWord a => s.ram.le32 a

/-- With BUSY = 0, or at a register, an accepted read only answers the value (R68). -/
theorem State.readTarget_quiet {s : State} {t : Target} (h : s.busy = false ∨ ∃ r, t = .reg r) :
    s.readTarget t = { s with rdata := s.readValue t } := by
  cases t with
  | reg r => rfl
  | ramByte a | ramWord a =>
    have hidle : ¬ s.busy = true := by simpa using h
    exact if_neg hidle

/-- No target reads the answer of an earlier read. -/
theorem State.readValue_withRdata (s : State) (t : Target) (d : Word) :
    { s with rdata := d }.readValue t = s.readValue t := by
  cases t with
  | reg r => cases r <;> rfl
  | ramByte a | ramWord a => rfl

theorem hostAccess_read_quiet {s : State} {bits off : Nat} {t : Target} (hr : route s.cfg.dataBytes bits off = .ok t)
    (h : s.busy = false ∨ ∃ r, t = .reg r) :
    hostAccess (.read bits off) s = { s with rdata := s.readValue t } := by
  simp only [hostAccess, hr, State.readTarget_quiet h]

/-- Settles O50: the second read finds the state of the first but for the answer. -/
theorem readsHaveNoSideEffect : Obligations.ReadsHaveNoSideEffect := by
  intro bits off s t hr h
  have hfirst := hostAccess_read_quiet hr h
  have hsecond := hostAccess_read_quiet (s := { s with rdata := s.readValue t }) hr h
  rw [State.readValue_withRdata] at hsecond
  exact ⟨s.readValue t, hfirst, hfirst ▸ hsecond⟩

/-- The answer of an 8-bit DATA read with BUSY = 0. -/
theorem hostAccess_read8_rdata {s : State} (hb : s.busy = false) {a : Nat} (ha : a < s.cfg.dataBytes) :
    (hostAccess (.read 8 (0x1000 + a)) s).rdata = (s.ram.byte a).zeroExtend 32 := by
  rw [hostAccess_read_quiet (route_ramByte ha) (.inl hb)]
  rfl

/-- The answer of an aligned 32-bit DATA read with BUSY = 0. -/
theorem hostAccess_read32_rdata {s : State} (hb : s.busy = false) {a : Nat} (h4 : a % 4 = 0)
    (ha : a + 4 ≤ s.cfg.dataBytes) : (hostAccess (.read 32 (0x1000 + a)) s).rdata = s.ram.le32 a := by
  rw [hostAccess_read_quiet (route_ramWord h4 ha) (.inl hb)]
  rfl

/-- A byte is its lane of the aligned word around it (R63). -/
theorem Ram.byteLane_le32_aligned (r : Ram) (a : Nat) : byteLane (r.le32 (a - a % 4)) (a % 4) = r.byte a := by
  rw [Ram.byteLane_le32 _ _ _ (Nat.mod_lt a (by decide)), Nat.sub_add_cancel (Nat.mod_le a 4)]

/-- The word's lanes from its first byte up (R63). -/
theorem Ram.byte_putLe32_lane (r : Ram) (a : Nat) (v : Word) {k : Nat} (hk : k < 4) :
    (r.putLe32 a v).byte (a + k) = byteLane v k := by
  rw [Ram.byte_putLe32, if_pos (by omega), Nat.add_sub_cancel_left]

theorem Ram.byte_putLe32_outside (r : Ram) {a : Nat} (v : Word) {b : Nat} (h : b < a ∨ a + 4 ≤ b) :
    (r.putLe32 a v).byte b = r.byte b := by
  rw [Ram.byte_putLe32, if_neg (by omega)]

/-- Settles O47. -/
theorem dataWindowIsLittleEndian : Obligations.DataWindowIsLittleEndian := by
  intro s hb
  have hidle : ¬ s.busy = true := by simp [hb]
  refine ⟨fun a v h4 ha => ?_, fun a hn ha => ?_, fun a v ha => ?_⟩
  · refine ⟨s.ram.putLe32 a v, (hostAccess_write32 h4 ha).trans (if_neg hidle), Ram.le32_putLe32 .., ?_,
      fun _ hk => Ram.byte_putLe32_lane _ a v hk, fun _ => Ram.byte_putLe32_outside _ v⟩
    rw [hostAccess_read32_rdata (s := { s with ram := s.ram.putLe32 a v }) hb h4 ha, Ram.le32_putLe32]
  · rw [hostAccess_read8_rdata hb ha, hostAccess_read32_rdata hb (by omega) (by omega)]
    exact congrArg (BitVec.zeroExtend 32) (Ram.byteLane_le32_aligned s.ram a).symm
  · refine ⟨s.ram.put a (v.truncate 8), (hostAccess_write8 ha).trans (if_neg hidle), ?_, fun b hne => ?_⟩
    · rw [Ram.byte_put, if_pos rfl]
      exact BitVec.setWidth_eq_extractLsb' (by decide)
    · rw [Ram.byte_put, if_neg hne]

/-! ## What a command writes -/

/-- `P` holds of the state that a meaning answers, if it answers one. -/
def Answers (P : State → Prop) (x : Outcome) : Prop := ∀ t, x = .next t → P t

theorem Answers.next {P : State → Prop} {t : State} (h : P t) : Answers P (.next t) := by
  rintro u ⟨⟩
  exact h

/-- A check of a command's rule: the error completion, or what follows the check (60_exceptions.md R204). -/
theorem Answers.check {P : State → Prop} {s : State} {c : Prop} [Decidable c] {e : Result} {x : Outcome}
    (herr : P (s.complete e false)) (hnext : ¬ c → Answers P x) : Answers P (if c then s.raise e else x) := by
  by_cases hc : c
  · rw [if_pos hc]
    exact .next herr
  · rw [if_neg hc]
    exact hnext hc

/-- Two RAMs that hold the same bytes below `lo` and from `hi` up. -/
def Ram.SameOutside (lo hi : Nat) (r q : Ram) : Prop := ∀ a, a < lo ∨ hi ≤ a → q.byte a = r.byte a

theorem Ram.SameOutside.refl {lo hi : Nat} (r : Ram) : Ram.SameOutside lo hi r r := fun _ _ => rfl

theorem Ram.SameOutside.trans {lo hi : Nat} {r q p : Ram} (h : Ram.SameOutside lo hi r q)
    (h' : Ram.SameOutside lo hi q p) : Ram.SameOutside lo hi r p := fun a ha => (h' a ha).trans (h a ha)

theorem Ram.SameOutside.putLe32 {lo hi : Nat} (r : Ram) {a : Nat} (hlo : lo ≤ a) (hhi : a + 4 ≤ hi) (v : Word) :
    Ram.SameOutside lo hi r (r.putLe32 a v) := fun _ _ => Ram.byte_putLe32_outside r v (by omega)

/-- The block loop writes whole blocks of the window only (40_session.md R109). -/
theorem sameOutside_mapBlocks (f : Block → Block) (off size : Nat) (r : Ram) :
    Ram.SameOutside off (off + size) r (mapBlocks f off (blockCount size) r) := fun a _ => by
  have hcount := blockCount_le size
  exact (mapBlocks_spec f off (blockCount size) r).2 a (by omega)

/-- The encode loop writes the grid words of an accepted window (42_obfuscator.md R153). -/
theorem sameOutside_obfEncLoop {size : Nat} (h : 9 ≤ size) (off : Nat) (key : Word) (r : Ram) :
    Ram.SameOutside off (off + size) r (obfEncLoop off (obfWords size) key r).2 := fun a _ => by
  obtain ⟨-, -, hkept⟩ := obfEncLoop_spec off (obfWords size) key r
  have hgrid := obfWords_grid h
  exact hkept a (by omega)

/-- The decode loop writes the same words. -/
theorem sameOutside_obfDecLoop {size : Nat} (h : 9 ≤ size) (off : Nat) (seed : Word) (r : Ram) :
    Ram.SameOutside off (off + size) r (obfDecLoop off (obfWords size) seed r).2 := fun a _ => by
  obtain ⟨-, -, hkept⟩ := obfDecLoop_spec off (obfWords size) seed r (obfWords size) (Nat.le_refl _)
  have hgrid := obfWords_grid h
  exact hkept a (by omega)

/-- What the size checks of the commands let through. -/
theorem len_of_checksumSizeOk {s : State} (h : ¬ checksumSizeOk s.len = false) : s.len % 4 = 0 ∧ 8 ≤ s.len := by
  rw [checksumSizeOk_eq_false] at h
  omega

theorem len_of_obfSizeOk {s : State} (h : ¬ obfSizeOk s.len = false) : 9 ≤ s.len := by
  rwa [obfSizeOk_eq_false, not_lt] at h

theorem len_of_modSizeOk {s : State} (h : ¬ modSizeOk s.len = false) : s.len = 128 := by
  rwa [modSizeOk_eq_false, not_not] at h

/-- The commands that write no DATA byte (20_memory.md R76). -/
theorem exec_keeps_ram {i : Instr} (h : i = .ckVerify ∨ ∃ slot, i = .sessInitk slot ∨ i = .sessInitf slot ∨
    i = .sessClose slot) (s : State) : Answers (fun t => t.ram = s.ram) (exec i s) := by
  rcases h with rfl | ⟨slot, rfl | rfl | rfl⟩
  · exact .check rfl fun _ => .check rfl fun _ => .next rfl
  · exact .check rfl fun _ => .check rfl fun _ => .check rfl fun _ => .next rfl
  · exact .check rfl fun _ => .next rfl
  · exact .next rfl

/-- No command writes a DATA byte outside its window (R76). -/
theorem exec_sameOutside (i : Instr) (s : State) :
    Answers (fun t => Ram.SameOutside s.off (s.off + s.len) s.ram t.ram) (exec i s) := by
  have same : Ram.SameOutside s.off (s.off + s.len) s.ram s.ram := .refl _
  have quiet : Answers (fun t => t.ram = s.ram) (exec i s) →
      Answers (fun t => Ram.SameOutside s.off (s.off + s.len) s.ram t.ram) (exec i s) :=
    fun h t ht => (h t ht).symm ▸ same
  cases i with
  | sessInitk slot | sessInitf slot | sessClose slot | ckVerify => exact quiet (exec_keeps_ram (by simp) s)
  | bcEnc slot | bcDec slot =>
    exact .check same fun _ => .check same fun _ => .next (sameOutside_mapBlocks _ s.off s.len s.ram)
  | ckAppend =>
    refine .check same fun _ => .check same fun hsize => ?_
    have hlen := len_of_checksumSizeOk hsize
    exact .next (.putLe32 s.ram (by omega) (by omega) _)
  | obfEnc =>
    refine .check same fun _ => .check same fun hsize => ?_
    have hlen := len_of_obfSizeOk hsize
    exact .next ((sameOutside_obfEncLoop hlen s.off s.obfKey s.ram).trans (.putLe32 _ (by omega) (by omega) _))
  | obfDec =>
    exact .check same fun _ => .check same fun hsize =>
      .next (sameOutside_obfDecLoop (len_of_obfSizeOk hsize) s.off _ s.ram)
  | modDesc =>
    refine .check same fun _ => .check same fun hsize => ?_
    have hlen := len_of_modSizeOk hsize
    exact .next fun a _ => descramble_outside s.off s.ram (by omega)

/-- Settles O37. -/
theorem commandsWriteOnlyTheirWindow : Obligations.CommandsWriteOnlyTheirWindow := by
  intro i s t h
  exact ⟨exec_sameOutside i s t h, fun hi a => congrArg (·.byte a) (exec_keeps_ram hi s t h)⟩

/-! ## What a command reads -/

/-- Two RAMs that hold the same bytes from `lo` up to `hi`. -/
def Ram.Agree (lo hi : Nat) (r q : Ram) : Prop := ∀ a, lo ≤ a → a < hi → q.byte a = r.byte a

theorem Ram.Agree.le32 {lo hi : Nat} {r q : Ram} (h : Ram.Agree lo hi r q) {a : Nat} (hlo : lo ≤ a) (hhi : a + 4 ≤ hi) :
    q.le32 a = r.le32 a := Ram.le32_congr fun b _ _ => h b (by omega) (by omega)

theorem Ram.Agree.block {lo hi : Nat} {r q : Ram} (h : Ram.Agree lo hi r q) {a : Nat} (hlo : lo ≤ a)
    (hhi : a + 8 ≤ hi) : q.block a = r.block a := Ram.block_congr fun b _ _ => h b (by omega) (by omega)

theorem Ram.Agree.read {lo n : Nat} {r q : Ram} (h : Ram.Agree lo (lo + n) r q) : q.read lo n = r.read lo n :=
  List.map_congr_left fun i hi => h (lo + i) (by omega) (by have := List.mem_range.1 hi; omega)

theorem Ram.Agree.foldWords {lo hi : Nat} {r q : Ram} (h : Ram.Agree lo hi r q) {n : Nat} (hhi : lo + 4 * n ≤ hi) :
    foldWords q lo n = foldWords r lo n := by
  rw [foldWords_eq, foldWords_eq]
  exact xorOfWords_congr fun a hlo ha => h a hlo (by omega)

/-- The same write at the same place keeps the agreement. -/
theorem Ram.Agree.put {lo hi : Nat} {r q : Ram} (h : Ram.Agree lo hi r q) (a : Nat) (x : Byte) :
    Ram.Agree lo hi (r.put a x) (q.put a x) := fun b hlo hhi => by
  rw [Ram.byte_put, Ram.byte_put, h b hlo hhi]

theorem Ram.Agree.putLe32 {lo hi : Nat} {r q : Ram} (h : Ram.Agree lo hi r q) (a : Nat) {v w : Word} (hw : w = v) :
    Ram.Agree lo hi (r.putLe32 a v) (q.putLe32 a w) :=
  hw ▸ (((h.put _ _).put _ _).put _ _).put _ _

theorem Ram.Agree.putBlock {lo hi : Nat} {r q : Ram} (h : Ram.Agree lo hi r q) (a : Nat) (x : Block) :
    Ram.Agree lo hi (r.putBlock a x) (q.putBlock a x) :=
  (((((((h.put _ _).put _ _).put _ _).put _ _).put _ _).put _ _).put _ _).put _ _

/-- A loop whose passes keep a relation between two runs keeps it. -/
theorem forRange_rel {α : Type} {n : Nat} {f : Nat → α → α} {x y : α} (R : α → α → Prop) (h0 : R x y)
    (hs : ∀ i x y, i < n → R x y → R (f i x) (f i y)) : R (forRange n f x) (forRange n f y) := by
  induction n with
  | zero => exact h0
  | succ n ih => exact hs n _ _ (by omega) (ih fun i x y hi => hs i x y (by omega))

theorem Ram.Agree.mapBlocks {lo hi n : Nat} {r q : Ram} (h : Ram.Agree lo hi r q) (f : Block → Block)
    (hhi : lo + 8 * n ≤ hi) : Ram.Agree lo hi (mapBlocks f lo n r) (mapBlocks f lo n q) :=
  forRange_rel _ h fun k r q hk h => by
    rw [h.block (a := lo + 8 * k) (by omega) (by omega)]
    exact h.putBlock _ _

/-- The accumulators are equal and the RAMs agree: what the obfuscator's loops keep. -/
def AccAgree (lo hi : Nat) (x y : Word × Ram) : Prop := y.1 = x.1 ∧ Ram.Agree lo hi x.2 y.2

theorem AccAgree.obfEncStep {lo hi j : Nat} {x y : Word × Ram} (h : AccAgree lo hi x y) (hhi : lo + 4 * j + 4 ≤ hi) :
    AccAgree lo hi (obfEncStep lo j x) (obfEncStep lo j y) := by
  obtain ⟨hacc, hram⟩ := h
  unfold Machine.obfEncStep
  rw [hacc, hram.le32 (a := lo + 4 * j) (by omega) (by omega)]
  exact ⟨rfl, hram.putLe32 _ rfl⟩

theorem AccAgree.obfDecStep {lo hi j : Nat} {x y : Word × Ram} (h : AccAgree lo hi x y) (hhi : lo + 4 * j + 4 ≤ hi) :
    AccAgree lo hi (obfDecStep lo j x) (obfDecStep lo j y) := by
  obtain ⟨hacc, hram⟩ := h
  unfold Machine.obfDecStep
  rw [hacc, hram.le32 (a := lo + 4 * j) (by omega) (by omega)]
  exact ⟨rfl, hram.putLe32 _ rfl⟩

theorem Ram.Agree.obfEncLoop {lo hi n : Nat} {r q : Ram} (h : Ram.Agree lo hi r q) (key : Word)
    (hhi : lo + 4 * (n + 1) ≤ hi) : AccAgree lo hi (obfEncLoop lo n key r) (obfEncLoop lo n key q) :=
  forRange_rel _ ⟨rfl, h⟩ fun _ _ _ _ hx => hx.obfEncStep (by omega)

theorem Ram.Agree.obfDecLoop {lo hi n : Nat} {r q : Ram} (h : Ram.Agree lo hi r q) {seed seed' : Word}
    (hseed : seed' = seed) (hhi : lo + 4 * (n + 1) ≤ hi) :
    AccAgree lo hi (obfDecLoop lo n seed r) (obfDecLoop lo n seed' q) :=
  forRange_rel _ ⟨hseed, h⟩ fun _ _ _ _ hx => hx.obfDecStep (by omega)

theorem Ram.Agree.xorRange {lo hi dst src n : Nat} {r q : Ram} (h : Ram.Agree lo hi r q) (hd : lo + dst + n ≤ hi)
    (hsrc : lo + src + n ≤ hi) : Ram.Agree lo hi (xorRange lo dst src n r) (xorRange lo dst src n q) :=
  forRange_rel _ h fun i r q hi h => by
    rw [h (lo + dst + i) (by omega) (by omega), h (lo + src + i) (by omega) (by omega)]
    exact h.put _ _

theorem Ram.Agree.swapRange {lo hi x y n : Nat} {r q : Ram} (h : Ram.Agree lo hi r q) (hx : lo + x + n ≤ hi)
    (hy : lo + y + n ≤ hi) : Ram.Agree lo hi (swapRange lo x y n r) (swapRange lo x y n q) :=
  forRange_rel _ h fun i r q hi h => by
    rw [h (lo + x + i) (by omega) (by omega), h (lo + y + i) (by omega) (by omega)]
    exact (h.put _ _).put _ _

theorem Ram.Agree.descramble {lo hi : Nat} {r q : Ram} (h : Ram.Agree lo hi r q) (hhi : lo + 128 ≤ hi) :
    Ram.Agree lo hi (descramble lo r) (descramble lo q) :=
  (((h.xorRange (by omega) (by omega)).xorRange (by omega) (by omega)).xorRange (by omega) (by omega)).swapRange
    (by omega) (by omega)

/-- Two meanings that answer the same state but for the RAM, and RAMs that agree from `lo` up to `hi`. -/
def Twins (lo hi : Nat) (x y : Outcome) : Prop :=
  ∃ t u : State, x = .next t ∧ y = .next u ∧ u = { t with ram := u.ram } ∧ Ram.Agree lo hi t.ram u.ram

theorem Twins.complete {lo hi : Nat} {r q : Ram} (h : Ram.Agree lo hi r q) (s : State) (code : Result) {ck ck' : Bool}
    (hck : ck' = ck) :
    Twins lo hi (.next (State.complete { s with ram := r } code ck))
      (.next (State.complete { s with ram := q } code ck')) :=
  hck ▸ ⟨_, _, rfl, rfl, rfl, h⟩

/-- A check that does not look at the RAM. -/
theorem Twins.check {lo hi : Nat} {s : State} {r : Ram} {c : Prop} [Decidable c] {e : Result} {x y : Outcome}
    (h : Ram.Agree lo hi s.ram r) (hnext : ¬ c → Twins lo hi x y) :
    Twins lo hi (if c then s.raise e else x) (if c then State.raise { s with ram := r } e else y) := by
  by_cases hc : c
  · rw [if_pos hc, if_pos hc]
    exact .complete h s e rfl
  · rw [if_neg hc, if_neg hc]
    exact hnext hc

/-- A command does the same to two states that differ in the RAM outside the window only (R76): whatever it reads of the
window is equal, so it writes the same. -/
theorem exec_twins (i : Instr) (s : State) (r : Ram) (h : Ram.Agree s.off (s.off + s.len) s.ram r) :
    Twins s.off (s.off + s.len) (exec i s) (exec i { s with ram := r }) := by
  cases i with
  | sessInitk slot =>
    refine .check h fun _ => .check h fun _ => .check h fun _ => ?_
    have hkey : r.read s.off s.len = s.ram.read s.off s.len := h.read
    exact hkey ▸ .complete h (s.setSlot slot _) .ok rfl
  | sessInitf slot => exact .check h fun _ => .complete h (s.setSlot slot _) .ok rfl
  | sessClose slot => exact .complete h (s.setSlot slot _) .ok rfl
  | bcEnc slot | bcDec slot =>
    have hcount := blockCount_le s.len
    exact .check h fun _ => .check h fun _ => .complete (h.mapBlocks _ (by omega)) s .ok rfl
  | ckVerify =>
    refine .check h fun _ => .check h fun hsize => ?_
    obtain ⟨h4, h8⟩ := len_of_checksumSizeOk hsize
    have hfold : foldWords r s.off (s.len / 4 - 1) = foldWords s.ram s.off (s.len / 4 - 1) := h.foldWords (by omega)
    have hlast : r.le32 (s.off + s.len - 4) = s.ram.le32 (s.off + s.len - 4) := h.le32 (by omega) (by omega)
    exact .complete h s .ok (decide_eq_decide.2 (by rw [← hfold, ← hlast]; rfl))
  | ckAppend =>
    refine .check h fun _ => .check h fun hsize => ?_
    obtain ⟨h4, h8⟩ := len_of_checksumSizeOk hsize
    have hfold : foldWords r s.off (s.len / 4 - 2) = foldWords s.ram s.off (s.len / 4 - 2) := h.foldWords (by omega)
    have hprev : r.le32 (s.off + s.len - 8) = s.ram.le32 (s.off + s.len - 8) := h.le32 (by omega) (by omega)
    exact .complete (h.putLe32 _ (congrArg₂ (· ^^^ ·) hfold hprev)) s .ok rfl
  | obfEnc =>
    refine .check h fun _ => .check h fun hsize => ?_
    have hgrid := obfWords_grid (len_of_obfSizeOk hsize)
    obtain ⟨hacc, hram⟩ := h.obfEncLoop s.obfKey (n := obfWords s.len) (by omega)
    exact .complete (hram.putLe32 _ hacc) s .ok rfl
  | obfDec =>
    refine .check h fun _ => .check h fun hsize => ?_
    have hlen := len_of_obfSizeOk hsize
    have hgrid := obfWords_grid hlen
    have hseed : r.le32 (s.off + s.len - 4) = s.ram.le32 (s.off + s.len - 4) := h.le32 (by omega) (by omega)
    exact .complete (h.obfDecLoop hseed (by omega)).2 s .ok rfl
  | modDesc =>
    refine .check h fun _ => .check h fun hsize => ?_
    have hlen := len_of_modSizeOk hsize
    exact .complete (h.descramble (by omega)) s .ok rfl

/-- Settles O38. -/
theorem commandsReadOnlyTheirWindow : Obligations.CommandsReadOnlyTheirWindow := exec_twins

end Sys2Proof.Machine

/-! PROOFS. The command encoding and the host programs (30_encoding.md): decode and encode are inverse to each other
(R80, R85), the table of R87 selects what decode reads, an ill-formed word completes with ERR_BAD_CMD (R86), and each
line of a host program does what R89 says. -/

namespace Sys2Proof

/-! ## Decode and encode -/

/-- The row decoder accepts a word of zero reserved fields whose OP and SLOT it accepts. -/
theorem decodeRow_eq_ok_iff {v : Word} {i : Instr} :
    decodeRow v = .ok i ↔ r0Field v = 0 ∧ r1Field v = 0 ∧ decodeOp (opField v) (slotField v) = .ok i :=
  ⟨decodeRow_ok, fun ⟨hr0, hr1, hop⟩ => (if_pos ⟨hr0, hr1⟩).trans hop⟩

theorem decodeRow_encode (i : Instr) : decodeRow (encode i) = .ok i := by
  obtain ⟨hr1, hr0, hop, hslot⟩ := encode_fields i
  exact decodeRow_eq_ok_iff.2 ⟨hr0, hr1, by rw [hop, hslot, decodeOp_op]⟩

/-- Settles O1: the fields of a command word are the command's OP and SLOT. -/
theorem decodeInvertsEncode : Obligations.DecodeInvertsEncode :=
  fun _ i hwf => decode_ok.2 ⟨decodeRow_encode i, hwf⟩

/-- Settles O2: a word is the one its four fields make up. -/
theorem encodeInvertsDecode : Obligations.EncodeInvertsDecode :=
  fun _ _ _ h => ⟨encode_of_decode h, (decode_ok.1 h).2⟩

/-! ## Well-formed words -/

/-- A command is well-formed when the slot it names, if any, exists (R85 condition 3). -/
theorem Instr.wf_iff {n : Nat} {i : Instr} : i.wf n = true ↔ ∀ slot, i.slot? = some slot → slot.toNat < n := by
  cases h : i.slot? <;> simp [Instr.wf, h]

/-- The command a word decodes to has the word's OP, and its SLOT where OP names a slot command. -/
theorem op_slot_of_decodeRow {v : Word} {i : Instr} (h : decodeRow v = .ok i) :
    i.op = opField v ∧ i.slot? = if (opField v).toNat ≤ 5 then some (slotField v) else none := by
  obtain ⟨-, -, hop⟩ := decodeRow_ok h
  obtain ⟨hi, -, hslot⟩ := decodeOp_ok hop
  exact ⟨hi, hslot⟩

/-- NUM_SESSIONS bounds the SLOT of a slot command's word. -/
theorem wf_iff_of_decodeRow {n : Nat} {v : Word} {i : Instr} (h : decodeRow v = .ok i) :
    i.wf n = true ↔ ((opField v).toNat ≤ 5 → (slotField v).toNat < n) := by
  rw [Instr.wf_iff, (op_slot_of_decodeRow h).2]
  by_cases h5 : (opField v).toNat ≤ 5 <;> simp [h5]

/-- The well-formed words, by the four conditions of R85. -/
theorem decode_isOk_iff {n : Nat} {v : Word} :
    (∃ i, decode n v = .ok i) ↔
      (r1Field v = 0 ∧ r0Field v = 0) ∧ (1 ≤ (opField v).toNat ∧ (opField v).toNat ≤ 10) ∧
      ((opField v).toNat ≤ 5 → (slotField v).toNat < n) ∧ (6 ≤ (opField v).toNat → slotField v = 0) := by
  constructor
  · rintro ⟨i, hi⟩
    obtain ⟨hrow, hi⟩ := decode_ok.1 hi
    obtain ⟨hr0, hr1, hop⟩ := decodeRow_ok hrow
    obtain ⟨hrange, hslot⟩ := (decodeOp_isOk _ _).1 ⟨i, hop⟩
    exact ⟨⟨hr1, hr0⟩, hrange, (wf_iff_of_decodeRow hrow).1 hi, hslot⟩
  · rintro ⟨⟨hr1, hr0⟩, hrange, hlt, hslot⟩
    obtain ⟨i, hop⟩ := (decodeOp_isOk _ _).2 ⟨hrange, hslot⟩
    have hrow := decodeRow_eq_ok_iff.2 ⟨hr0, hr1, hop⟩
    exact ⟨i, decode_ok.2 ⟨hrow, (wf_iff_of_decodeRow hrow).2 hlt⟩⟩

end Sys2Proof

namespace Sys2Proof.Machine

/-- A word that is not well-formed completes with ERR_BAD_CMD and no other effect (R85, 60_exceptions.md R204). -/
theorem step_of_not_decoded {s : State} (hb : s.busy = true) (he : s.nextEvent = .engine)
    (hd : ∀ i, decode s.slots.length s.cmd ≠ .ok i) :
    step s = .next { s with busy := false, done := true, ckOk := false, result := .errBadCmd, inbox := s.inbox.tail } :=
  (step_engine hb he).trans (completion_rejected (s := s.popped) hd)

/-- Settles O3: the words of R85, what they decode to, and the completion of the others. -/
theorem decodeAcceptsExactlyWellFormedWords : Obligations.DecodeAcceptsExactlyWellFormedWords :=
  ⟨fun _ _ => decode_isOk_iff, fun _ _ _ h => op_slot_of_decodeRow (decode_ok.1 h).1, fun _ => step_of_not_decoded⟩

/-- Settles O6: each kind of R86 breaks one of the conditions of R85. -/
theorem illegalWordsChangeOnlyStatus : Obligations.IllegalWordsChangeOnlyStatus := by
  intro s hb he hillegal
  refine step_of_not_decoded hb he fun i hi => ?_
  obtain ⟨⟨hr1, hr0⟩, ⟨hop1, hop10⟩, hlt, hslot⟩ := decode_isOk_iff.1 ⟨i, hi⟩
  rcases hillegal with (hzero | hhigh) | (hbit | hbit) | ⟨h6, -, hne⟩ | ⟨-, h5, hge⟩
  · have : (opField s.cmd).toNat = 0 := congrArg BitVec.toNat hzero
    omega
  · exact absurd hop10 (Nat.not_le.2 hhigh)
  · exact hbit hr0
  · exact hbit hr1
  · exact hne (hslot h6)
  · exact absurd (hlt h5) (Nat.not_lt.2 hge)

end Sys2Proof.Machine

namespace Sys2Proof

/-! ## The table of R87 -/

/-- A word is the command word of `i` exactly when its fields are those of `i` (R80). -/
theorem encode_eq_iff {i : Instr} {v : Word} : encode i = v ↔
    r1Field v = 0 ∧ r0Field v = 0 ∧ opField v = i.op ∧ slotField v = i.slot?.getD 0 := by
  obtain ⟨er1, er0, eop, eslot⟩ := encode_fields i
  constructor
  · rintro rfl
    exact ⟨er1, er0, eop, eslot⟩
  · rintro ⟨hr1, hr0, hop, hslot⟩
    exact word_ext (eop.trans hop.symm) (er0.trans hr0.symm) (eslot.trans hslot.symm) (er1.trans hr1.symm)

/-- The mask of the slot commands clears the SLOT field and keeps the others. -/
theorem fields_and_slotMask (v : Word) : r1Field (v &&& 0xFFFFF0FF) = r1Field v ∧
    r0Field (v &&& 0xFFFFF0FF) = r0Field v ∧ opField (v &&& 0xFFFFF0FF) = opField v ∧
    slotField (v &&& 0xFFFFF0FF) = 0 := by
  have keep4 : ∀ x : BitVec 4, x &&& 15#4 = x := fun _ => BitVec.and_allOnes
  have keep20 : ∀ x : BitVec 20, x &&& 1048575#20 = x := fun _ => BitVec.and_allOnes
  simp [r1Field, r0Field, opField, slotField, BitVec.extractLsb'_and, keep4, keep20]

/-- A row's pattern is its command's word with SLOT = 0; its mask leaves SLOT open where the command names the slot, and
is full where it names none (R87). -/
theorem opcodeTable_row : ∀ r ∈ opcodeTable, r.pattern = encode (r.make 0) ∧
    ((r.mask = 0xFFFFF0FF ∧ ∀ slot, (r.make slot).op = (r.make 0).op ∧ (r.make slot).slot? = some slot) ∨
     (r.mask = 0xFFFFFFFF ∧ ∀ slot, r.make slot = r.make 0)) := by
  decide

/-- A row selects exactly the command words of its command. -/
theorem selects_iff {r : OpcodeRow} (hr : r ∈ opcodeTable) (v : Word) :
    r.Selects v ↔ encode (r.make (slotField v)) = v := by
  obtain ⟨hpattern, ⟨hmask, hmake⟩ | ⟨hmask, hmake⟩⟩ := opcodeTable_row r hr
  · obtain ⟨hop, hslot⟩ := hmake (slotField v)
    obtain ⟨mr1, mr0, mop, mslot⟩ := fields_and_slotMask v
    rw [OpcodeRow.Selects, hmask, hpattern, eq_comm, encode_eq_iff, encode_eq_iff, mr1, mr0, mop, mslot, hop, hslot,
      (hmake 0).2]
    simp
  · have hfull : v &&& 0xFFFFFFFF = v := BitVec.and_allOnes
    rw [OpcodeRow.Selects, hmask, hpattern, hfull, hmake (slotField v), eq_comm]

/-- Every command has its row. -/
theorem exists_row (i : Instr) : ∃ r ∈ opcodeTable, r.make (i.slot?.getD 0) = i := by
  cases i <;> simp [opcodeTable, Instr.slot?]

/-- Two rows make different commands. -/
theorem opcodeTable_pairwise_make_ne : opcodeTable.Pairwise fun r q => ∀ slot, r.make slot ≠ q.make slot := by
  simp [opcodeTable]

theorem decodeRow_of_selects {v : Word} {r : OpcodeRow} (hr : r ∈ opcodeTable) (hsel : r.Selects v) :
    decodeRow v = .ok (r.make (slotField v)) := by
  have hword := (selects_iff hr v).1 hsel
  exact (congrArg decodeRow hword).symm.trans (decodeRow_encode _)

/-- Settles O4: a row selects the command words of its command, which decode reads back; rows of different commands
share no word. -/
theorem opcodeTableSelectsCommands : Obligations.OpcodeTableSelectsCommands := by
  refine ⟨fun _ _ => decodeRow_of_selects, fun v i hi => ?_, ?_⟩
  · obtain ⟨hr0, hr1, hop⟩ := decodeRow_ok hi
    obtain ⟨hiop, hislot, -⟩ := decodeOp_ok hop
    obtain ⟨r, hr, hmake⟩ := exists_row i
    refine ⟨r, hr, (selects_iff hr v).2 ?_⟩
    rw [← hislot, hmake]
    exact encode_eq_iff.2 ⟨hr1, hr0, hiop.symm, hislot.symm⟩
  · refine opcodeTable_pairwise_make_ne.imp_of_mem fun hr hq hne v ⟨hsel, hsel'⟩ => hne (slotField v) ?_
    exact Except.ok.inj ((decodeRow_of_selects hr hsel).symm.trans (decodeRow_of_selects hq hsel'))

/-- Settles O5: each word is the command word of its command. -/
theorem sampleWordsDecode : Obligations.SampleWordsDecode :=
  ⟨decodeInvertsEncode 16 (.bcEnc 3) rfl, decodeInvertsEncode 16 (.sessInitf 0) rfl,
    decodeInvertsEncode 16 (.sessInitk 1) rfl, decodeInvertsEncode 16 .ckVerify rfl,
    decodeInvertsEncode 16 .obfDec rfl, decodeInvertsEncode 16 .modDesc rfl⟩

end Sys2Proof

namespace Sys2Proof.Machine

/-! ## The host agent: its next line and its variables -/

/-- A host that runs takes the next line in hand, or with none in hand the first line of its next program line (R89,
R90). -/
theorem fetch_eq_some_of {h g : HostAgent} {l : HostLine} (hrun : h.halted = false)
    (hnext : (∃ more, h.todo = l :: more ∧ g = { h with todo := more }) ∨
      (h.todo = [] ∧ ∃ p, 1 ≤ h.line ∧ h.program[h.line - 1]? = some p ∧ l = p.expand.1 ∧
        g = { h with line := h.line + 1, todo := p.expand.2 })) :
    h.fetch = some (l, g) := by
  rcases hnext with ⟨more, htodo, rfl⟩ | ⟨htodo, p, hline, hp, rfl, rfl⟩
  · simp [HostAgent.fetch, hrun, htodo]
  · obtain ⟨k, hk⟩ := Nat.exists_eq_add_of_le' hline
    have hat : h.lineAt h.line = some p := by simpa [HostAgent.lineAt, hk] using hp
    simp [HostAgent.fetch, hrun, htodo, hat]

/-- A halted host has no next line, and neither has one past its program. -/
theorem fetch_eq_none_of {h : HostAgent}
    (hstop : h.halted = true ∨ (h.todo = [] ∧ ¬ (1 ≤ h.line ∧ h.line ≤ h.program.length))) : h.fetch = none := by
  rcases hstop with hhalted | ⟨htodo, hline⟩
  · simp [HostAgent.fetch, hhalted]
  · have hat : h.lineAt h.line = none :=
      Option.eq_none_iff_forall_ne_some.2 fun p hp => hline ((lineAt_iff _ _).1 ⟨p, hp⟩)
    simp [HostAgent.fetch, htodo, hat]

/-- Taking the next line assigns no variable. -/
theorem fetch_vars {h g : HostAgent} {l : HostLine} (hf : h.fetch = some (l, g)) : g.vars = h.vars := by
  unfold HostAgent.fetch at hf
  split at hf
  · cases hf
  · split at hf
    · cases hf
      rfl
    · split at hf
      · cases hf
      · cases hf
        rfl

/-- A variable's value depends on the agent's assignments only. -/
theorem HostAgent.var_congr {h g : HostAgent} (hv : g.vars = h.vars) (x : Var) : g.var x = h.var x := by
  simp only [HostAgent.var, hv]

@[simp] theorem HostAgent.var_setVar_same (h : HostAgent) (x : Var) (v : Word) : (h.setVar x v).var x = v := by
  simp [HostAgent.var, HostAgent.setVar]

theorem HostAgent.var_setVar_of_ne (h : HostAgent) {x y : Var} (hne : y ≠ x) (v : Word) :
    (h.setVar x v).var y = h.var y := by
  have hfind : (h.vars.filter fun p => p.1 != x).find? (fun p => p.1 == y) = h.vars.find? fun p => p.1 == y := by
    rw [List.find?_filter]
    congr 1
    funext p
    by_cases hp : p.1 = y <;> simp [hp, hne]
  simp [HostAgent.var, HostAgent.setVar, hne.symm, hfind]

/-! ## The host agent's turn -/

theorem step_host {s : State} {rest : List Event} (hin : s.inbox = .host :: rest) :
    step s = hostTurn { s with inbox := rest } := by
  simp [step, nextMove, State.nextEvent, hin, move]

/-- At the host agent's turn the step runs its next line. -/
theorem step_hostLine {s : State} {rest : List Event} {l : HostLine} {h : HostAgent} (hin : s.inbox = .host :: rest)
    (hf : s.host.fetch = some (l, h)) : step s = runHostLine l { s with inbox := rest, host := h } := by
  rw [step_host hin]
  simp only [hostTurn, hf]

/-- A host with no next line does nothing. -/
theorem step_hostIdle {s : State} {rest : List Event} (hin : s.inbox = .host :: rest) (hf : s.host.fetch = none) :
    step s = .next { s with inbox := rest } := by
  rw [step_host hin]
  simp only [hostTurn, hf]

/-! ## What a line does -/

/-- A jump to a line of the program. -/
theorem hostGoto_line {n : Nat} {s : State} (hn : 1 ≤ n ∧ n ≤ s.host.program.length) :
    hostGoto n s = .next { s with host := { s.host with line := n, todo := [] } } := by
  rcases hostGoto_cases n s with ⟨-, hout⟩ | hgo
  · exact absurd hn hout
  · exact hgo

/-- A host read assigns the data of its access, which the agent's own fields do not change. -/
theorem hostRead_beside (x : Var) (off : Nat) (s : State) (h : HostAgent) (moves : List Event) :
    hostRead x off { s with inbox := moves, host := h } =
      { hostAccess (.read 32 off) s with
        inbox := moves, host := h.setVar x (hostAccess (.read 32 off) s).rdata } := by
  have hacc := hostAccess_beside (.read 32 off) s h moves
  simp only [hostRead, hacc]

/-- POLL reads STATUS into t and comes again while BUSY reads 1. -/
theorem hostPoll_beside (s : State) (h : HostAgent) (moves : List Event) :
    hostPoll { s with inbox := moves, host := h } =
      { s with
        rdata := s.statusWord, inbox := moves
        host := { h.setVar varT s.statusWord with todo := if s.busy then .poll :: h.todo else h.todo } } := by
  have hread : hostAccess (.read 32 0x004) s = { s with rdata := s.statusWord } := hostAccess_readReg (r := .status) rfl
  have hbusy : s.statusWord.getLsbD 0 = s.busy := s.statusWord_getLsbD 0
  simp only [hostPoll, hostRead_beside, hread, hbusy]
  cases s.busy <;> rfl

/-- A goto and a conditional jump on its condition go to their line of the program. -/
theorem runHostLine_of_taken {n : Nat} {x : Var} {m : Word} {l : HostLine} {s : State}
    (hn : 1 ≤ n ∧ n ≤ s.host.program.length)
    (hl : l = .goto n ∨ (l = .ifSet x m n ∧ s.host.var x &&& m ≠ 0) ∨ (l = .ifClear x m n ∧ s.host.var x &&& m = 0)) :
    runHostLine l s = .next { s with host := { s.host with line := n, todo := [] } } := by
  rw [← hostGoto_line hn]
  rcases hl with rfl | ⟨rfl, hc⟩ | ⟨rfl, hc⟩
  · rfl
  · exact if_pos hc
  · exact if_pos hc

/-- A conditional jump without its condition does nothing. -/
theorem runHostLine_of_not_taken {n : Nat} {x : Var} {m : Word} {l : HostLine} {s : State}
    (hl : (l = .ifSet x m n ∧ s.host.var x &&& m = 0) ∨ (l = .ifClear x m n ∧ s.host.var x &&& m ≠ 0)) :
    runHostLine l s = .next s := by
  rcases hl with ⟨rfl, hc⟩ | ⟨rfl, hc⟩
  · exact if_neg (not_not.2 hc)
  · exact if_neg hc

/-- Settles O55, line by line: taking the line changes neither the variables nor the program. -/
theorem hostLinesDoWhatTheySay : Obligations.HostLinesDoWhatTheySay := by
  refine ⟨fun s rest l h hin hf => ?_, fun s rest hin hstop => step_hostIdle hin (fetch_eq_none_of hstop),
    fun _ _ _ _ _ _ => ⟨rfl, rfl, rfl, rfl, rfl⟩⟩
  have hstep := step_hostLine hin hf
  have hvar := HostAgent.var_congr (fetch_vars hf)
  have hprogram := (fetch_cases hf).1
  refine ⟨?_, ?_, fun x off hl => ?_, fun n x m h1 hn hl => ?_, fun n x m hl => ?_, ?_⟩
  · rintro off v rfl
    exact hstep
  · rintro off b rfl
    exact hstep
  · subst hl
    refine ⟨_, hstep.trans (congrArg Host.Outcome.next (hostRead_beside x off s h rest)), ?_, fun y hy => ?_, rfl, rfl⟩
    · exact HostAgent.var_setVar_same ..
    · exact (HostAgent.var_setVar_of_ne _ hy _).trans (hvar y)
  · rw [← hvar] at hl
    rw [← hprogram] at hn
    exact hstep.trans (runHostLine_of_taken (s := { s with inbox := rest, host := h }) ⟨h1, hn⟩ hl)
  · rw [← hvar] at hl
    exact hstep.trans (runHostLine_of_not_taken hl)
  · rintro rfl
    exact hstep

/-- Settles O54: both kinds of turn take `l` as the next line. -/
theorem hostIssueAndPollLines : Obligations.HostIssueAndPollLines := by
  intro s rest l h hin hrun hnext
  have hf := fetch_eq_some_of hrun hnext
  have hstep := step_hostLine hin hf
  refine ⟨?_, ?_⟩
  · rintro i rfl
    exact hstep
  · rintro rfl
    refine ⟨_, hstep.trans (congrArg Host.Outcome.next (hostPoll_beside s h rest)), ?_, fun x hx => ?_, rfl, rfl⟩
    · have hread := hostAccess_readReg_rdata s (off := 0x004) (r := .status) rfl
      exact (HostAgent.var_setVar_same h varT s.statusWord).trans hread.symm
    · exact (HostAgent.var_setVar_of_ne h hx _).trans (HostAgent.var_congr (fetch_vars hf) x)

end Sys2Proof.Machine

/-! PROOFS. The session commands (40_session.md): what may change a keyed slot, what SESS.* and BC.* answer, and the
round trip of BC.ENC and BC.DEC. -/

namespace Sys2Proof.Machine

/-! ## Reads of the slot file -/

theorem State.slotAt_of_getElem? {s : State} {slot : BitVec 4} {x : Slot} (h : s.slots[slot.toNat]? = some x) :
    s.slotAt slot = x := by
  simp [State.slotAt, h]

/-- A written slot reads back; one that does not exist takes no write and reads as free (log 20). -/
theorem State.slotAt_setSlot (s : State) (slot : BitVec 4) (x : Slot) :
    (s.setSlot slot x).slotAt slot = if slot.toNat < s.slots.length then x else Slot.free := by
  by_cases h : slot.toNat < s.slots.length
  · rw [if_pos h]
    exact slotAt_of_getElem? (by rw [setSlot_getElem?, if_pos ⟨rfl, h⟩])
  · simp [State.slotAt, h]

/-- Writing a slot's own value back changes nothing. -/
theorem State.setSlot_slotAt (s : State) (slot : BitVec 4) : s.setSlot slot (s.slotAt slot) = s := by
  have hset : s.slots.set slot.toNat (s.slotAt slot) = s.slots := by
    apply List.ext_getElem?
    intro j
    by_cases h : slot.toNat = j ∧ j < s.slots.length
    · obtain ⟨rfl, hlt⟩ := h
      simp [State.slotAt, hlt]
    · exact (s.setSlot_getElem? slot _ j).trans (if_neg h)
  unfold State.setSlot
  rw [hset]

/-- The valid bits after the write of an existing slot (10_state.md R29). -/
theorem validBits_set {l : List Slot} {n : Nat} (hn : n < l.length) (x : Slot) {j : Nat} (hj : j < 32) :
    (validBits (l.set n x)).getLsbD j = if j = n then x.valid else (validBits l).getLsbD j := by
  rw [validBits_getLsbD _ _ hj, validBits_getLsbD _ _ hj]
  by_cases h : j = n
  · subst h
    simp [hn]
  · simp [h, List.getElem_set_ne (Ne.symm h)]

/-- A read of SESS_VALID after the write of an existing slot shows that slot's new bit and the other bits as before. -/
theorem read_sessValid_of_set {s t : State} {slot : BitVec 4} {x : Slot} (hlt : slot.toNat < s.slots.length)
    (ht : t.slots = s.slots.set slot.toNat x) {j : Nat} (hj : j < 32) :
    (hostAccess (.read 32 0x018) t).rdata.getLsbD j =
      if j = slot.toNat then x.valid else (hostAccess (.read 32 0x018) s).rdata.getLsbD j := by
  have hread : ∀ q : State, (hostAccess (.read 32 0x018) q).rdata = validBits q.slots :=
    fun q => hostAccess_readReg_rdata q (r := .sessValid) rfl
  rw [hread, hread, ht, validBits_set hlt x hj]

/-! ## SESS.CLOSE -/

theorem exec_sessClose (slot : BitVec 4) (s : State) :
    exec (.sessClose slot) s =
      .next ((s.setSlot slot { s.slotAt slot with valid := false }).complete .ok false) := rfl

/-! ## A keyed slot -/

/-- A completed command other than the slot's own SESS.CLOSE leaves a keyed slot as it is: a command that keys a slot
finds it free (40_session.md R103, R104). -/
theorem Completed.keyed_slot {i : Instr} {s t : State} (c : Completed i s t) {j : Nat} {x : Slot}
    (hx : s.slots[j]? = some x) (hv : x.valid = true) :
    t.slots[j]? = some x ∨ ∃ slot, i = .sessClose slot ∧ slot.toNat = j := by
  rcases c.slots with hsame | ⟨slot, y, -, hset, hkeyed, hclosed⟩
  · exact .inl (hsame ▸ hx)
  by_cases hj : slot.toNat = j
  · subst hj
    cases hy : y.valid with
    | true =>
      obtain ⟨hfree, -⟩ := hkeyed hy
      rw [State.slotAt_of_getElem? hx, hv] at hfree
      cases hfree
    | false => exact .inr ⟨slot, hclosed hy, rfl⟩
  · exact .inl (by rw [hset, List.getElem?_set_ne hj, hx])

/-- Every move but a reset leaves a keyed slot as it is, or completes that slot's SESS.CLOSE (R113). -/
theorem Moved.keyed_slot {s t : State} {e : Event} (h : Moved s e t) (he : e ≠ .reset) {j : Nat} {x : Slot}
    (hx : s.slots[j]? = some x) (hv : x.valid = true) :
    t.slots[j]? = some x ∨
      (s.busy = true ∧ e = .engine ∧ t.busy = false ∧ t.done = true ∧ t.result = .ok ∧
        (∃ slot : BitVec 4, decode s.slots.length s.cmd = .ok (.sessClose slot) ∧ slot.toNat = j) ∧
        ∃ y, t.slots[j]? = some y ∧ y.valid = false) := by
  cases h with
  | completed hb hd hexec =>
    rcases (completed_of_exec hexec).keyed_slot hx hv with hkept | ⟨slot, rfl, rfl⟩
    · exact .inl hkept
    · have hlt : slot.toNat < s.slots.length := (List.getElem?_eq_some_iff.1 hx).1
      cases (exec_sessClose slot s).symm.trans hexec
      exact .inr ⟨hb, rfl, rfl, rfl, rfl, ⟨slot, hd, rfl⟩, _,
        (s.setSlot_getElem? slot _ _).trans (if_pos ⟨rfl, hlt⟩), rfl⟩
  | bad => exact .inl hx
  | idle => exact .inl hx
  | host ht =>
    rw [ht]
    exact .inl ((ported_performed s _).slots ▸ hx)
  | access => exact .inl ((ported_hostAccess _ s).slots ▸ hx)
  | reset => exact absurd rfl he

theorem nextEvent_ne_reset {s : State} (h : ∀ rest, s.inbox ≠ .reset :: rest) : s.nextEvent ≠ .reset := by
  unfold State.nextEvent
  cases hin : s.inbox with
  | nil => cases s.busy <;> simp
  | cons e rest =>
    rintro rfl
    exact h rest hin

/-- Settles O25: the step's move acts on a state with the same slot file. -/
theorem keyedSlotKeepsItsKey : Obligations.KeyedSlotKeepsItsKey :=
  fun _ _ _ _ h hx hv hreset => (step_next h).keyed_slot (nextEvent_ne_reset hreset) hx hv

/-! ## What every command leaves -/

/-- Settles O10, from the record that every completion writes (60_exceptions.md R201). -/
theorem commandFrame : Obligations.CommandFrame := fun _ _ _ h =>
  have c := completed_of_exec h
  ⟨c.shape, c.slots_length, c.ram.epoch⟩

/-! ## SESS.INITK and SESS.INITF -/

theorem exec_sessInitk_range {slot : BitVec 4} {s : State} (h : s.cfg.dataBytes < s.off + s.len) :
    exec (.sessInitk slot) s = .next (s.complete .errRange false) := if_pos (s.windowFits_eq_false.2 h)

/-- SESS.INITK past the window check (60_exceptions.md R203). -/
theorem exec_sessInitk_fits {slot : BitVec 4} {s : State} (h : s.off + s.len ≤ s.cfg.dataBytes) :
    exec (.sessInitk slot) s =
      if (s.slotAt slot).valid then s.raise .errSessionActive
      else if s.keyLenOk = false then s.raise .errKeyLen
      else (s.setSlot slot ⟨true, s.ram.read s.off s.len⟩).completeOk :=
  if_neg (by simp [s.windowFits_eq_true.2 h])

theorem exec_sessInitf_active {slot : BitVec 4} {s : State} (h : (s.slotAt slot).valid = true) :
    exec (.sessInitf slot) s = .next (s.complete .errSessionActive false) := if_pos h

theorem exec_sessInitf_free {slot : BitVec 4} {s : State} (h : (s.slotAt slot).valid = false) :
    exec (.sessInitf slot) s = .next ((s.setSlot slot ⟨true, s.cfg.fallbackKey⟩).complete .ok false) :=
  if_neg (by simp [h])

/-- Settles O18, check by check in the order of R204. -/
theorem sessInitkResult : Obligations.SessInitkResult := by
  refine fun slot s => ⟨exec_sessInitk_range, fun hfit hv => ?_, fun hfit hv hlen => ?_, fun hfit hv hmin hmax => ?_⟩
  · rw [exec_sessInitk_fits hfit, if_pos hv]
    rfl
  · rw [exec_sessInitk_fits hfit, if_neg (by simp [hv]), if_pos (s.keyLenOk_eq_false.2 hlen)]
    rfl
  · have hkeyLen : ¬ s.keyLenOk = false := by
      rw [s.keyLenOk_eq_false]
      omega
    refine ⟨s.ram.read s.off s.len, _, ?_, rfl, s.ram.read_length s.off s.len, s.ram.getElem?_read s.off s.len,
      fun hlt => ⟨?_, ?_⟩⟩
    · rw [exec_sessInitk_fits hfit, if_neg (by simp [hv]), if_neg hkeyLen]
      rfl
    · exact (s.slotAt_setSlot slot _).trans (if_pos hlt)
    · exact (read_sessValid_of_set hlt rfl (by omega)).trans (if_pos rfl)

/-- Settles O57: the keyed slot reads back, so the second SESS.INITF finds it keyed. -/
theorem sessInitfKeysSlot : Obligations.SessInitfKeysSlot := by
  intro slot s hlt hv
  have hslot : (s.setSlot slot ⟨true, s.cfg.fallbackKey⟩).slotAt slot = ⟨true, s.cfg.fallbackKey⟩ :=
    (s.slotAt_setSlot slot _).trans (if_pos hlt)
  exact ⟨_, exec_sessInitf_free hv, rfl, hslot,
    fun j hj => read_sessValid_of_set (x := ⟨true, s.cfg.fallbackKey⟩) hlt rfl hj,
    exec_sessInitf_active (congrArg Slot.valid hslot)⟩

/-- Settles O19: SESS.INITF reads none of the three registers. -/
theorem sessInitfResult : Obligations.SessInitfResult := fun _ _ =>
  ⟨fun hv _ _ _ => exec_sessInitf_active hv, fun hv _ _ _ => exec_sessInitf_free hv⟩

/-! ## The block commands -/

/-- The rule that R107 and R108 share: each whole block of the window is replaced by its image under `f`. -/
def blockCommand (f : Block → Block) (slot : BitVec 4) (s : State) : Outcome :=
  if s.windowFits = false then s.raise .errRange
  else if (s.slotAt slot).valid = false then s.raise .errNoSession
  else State.completeOk { s with ram := mapBlocks f s.off (blockCount s.len) s.ram }

theorem exec_bcEnc (slot : BitVec 4) (s : State) :
    exec (.bcEnc slot) s = blockCommand (s.encBlock (s.slotAt slot).key) slot s := rfl

theorem exec_bcDec (slot : BitVec 4) (s : State) :
    exec (.bcDec slot) s = blockCommand (s.decBlock (s.slotAt slot).key) slot s := rfl

theorem blockCommand_range {f : Block → Block} {slot : BitVec 4} {s : State} (h : s.cfg.dataBytes < s.off + s.len) :
    blockCommand f slot s = .next (s.complete .errRange false) := if_pos (s.windowFits_eq_false.2 h)

theorem blockCommand_noSession {f : Block → Block} {slot : BitVec 4} {s : State}
    (hfit : s.off + s.len ≤ s.cfg.dataBytes) (hv : (s.slotAt slot).valid = false) :
    blockCommand f slot s = .next (s.complete .errNoSession false) :=
  (if_neg (by simp [s.windowFits_eq_true.2 hfit])).trans (if_pos hv)

/-- A block command that passes its checks: the blocks of the window, and every other byte (R106, R109). -/
theorem blockCommand_ok {f : Block → Block} {slot : BitVec 4} {s : State}
    (hfit : s.off + s.len ≤ s.cfg.dataBytes) (hv : (s.slotAt slot).valid = true) :
    ∃ r : Ram, blockCommand f slot s = .next (State.complete { s with ram := r } .ok false) ∧
      (∀ k, k < s.len / 8 → r.block (s.off + 8 * k) = f (s.ram.block (s.off + 8 * k))) ∧
      ∀ a, a < s.off ∨ s.off + 8 * (s.len / 8) ≤ a → r.byte a = s.ram.byte a :=
  ⟨_, (if_neg (by simp [s.windowFits_eq_true.2 hfit])).trans (if_neg (by simp [hv])),
    mapBlocks_spec f s.off (blockCount s.len) s.ram⟩

/-- Settles O21: BC.ENC is the block rule with the encryption under the slot's key. -/
theorem bcEncResult : Obligations.BcEncResult := fun slot s => by
  rw [exec_bcEnc]
  exact ⟨blockCommand_range, blockCommand_noSession, blockCommand_ok⟩

/-- Settles O22: BC.DEC is the block rule with the decryption under the slot's key. -/
theorem bcDecResult : Obligations.BcDecResult := fun slot s => by
  rw [exec_bcDec]
  exact ⟨blockCommand_range, blockCommand_noSession, blockCommand_ok⟩

/-- Settles O20: after SESS.CLOSE the slot reads as free, whether it exists or not. -/
theorem sessCloseResult : Obligations.SessCloseResult := by
  intro slot s
  have hfree : ((s.setSlot slot { s.slotAt slot with valid := false }).slotAt slot).valid = false := by
    rw [State.slotAt_setSlot]
    split <;> rfl
  refine ⟨_, exec_sessClose slot s, rfl, List.length_set .., fun j hj => List.getElem?_set_ne (Ne.symm hj), hfree,
    fun hv => ?_, fun hfit => blockCommand_noSession hfit hfree⟩
  have hsame : { s.slotAt slot with valid := false } = s.slotAt slot := by rw [← hv]
  rw [State.complete_slots, hsame, State.setSlot_slotAt]

/-! ## The round trip -/

/-- RAMs that agree on the blocks of a grid and outside it agree on every byte. -/
theorem Ram.byte_eq_of_blocks {r q : Ram} {off n : Nat}
    (hin : ∀ k, k < n → q.block (off + 8 * k) = r.block (off + 8 * k))
    (hout : ∀ a, a < off ∨ off + 8 * n ≤ a → q.byte a = r.byte a) (a : Nat) : q.byte a = r.byte a := by
  by_cases h : a < off ∨ off + 8 * n ≤ a
  · exact hout a h
  · have hbyte := Ram.byte_of_block (hin ((a - off) / 8) (by omega)) ((a - off) % 8) (by omega)
    rwa [show off + 8 * ((a - off) / 8) + (a - off) % 8 = a by omega] at hbyte

/-- The step at the engine's turn runs the well-formed command in flight. -/
theorem step_command {s : State} {i : Instr} (hb : s.busy = true) (he : s.nextEvent = .engine)
    (hcmd : s.cmd = encode i) (hwf : i.wf s.slots.length = true) : step s = exec i s.popped :=
  (step_engine hb he).trans (completion_decoded (s := s.popped)
    ((congrArg (decode s.slots.length) hcmd).trans (decodeInvertsEncode _ i hwf)))

/-- CIPHER_INV (00_scope.md R12) for the two schedules of one key. -/
theorem State.decBlock_encBlock (s : State) {key : List Byte} (hmin : 1 ≤ key.length)
    (hmax : key.length ≤ s.cfg.keyMaxBytes) (b : Block) : s.decBlock key (s.encBlock key b) = b :=
  (Config.cipher s.cfg.keyMaxBytes).inv key b hmin hmax

/-- The step that completes a BC.ENC which passes its checks. -/
theorem step_bcEnc {slot : BitVec 4} {s : State} (hb : s.busy = true) (he : s.nextEvent = .engine)
    (hcmd : s.cmd = encode (.bcEnc slot)) (hlt : slot.toNat < s.slots.length) (hv : (s.slotAt slot).valid = true)
    (hfit : s.off + s.len ≤ s.cfg.dataBytes) :
    ∃ r : Ram, step s = .next (State.complete { s.popped with ram := r } .ok false) ∧
      (∀ k, k < s.len / 8 → r.block (s.off + 8 * k) = s.encBlock (s.slotAt slot).key (s.ram.block (s.off + 8 * k))) ∧
      ∀ a, a < s.off ∨ s.off + 8 * (s.len / 8) ≤ a → r.byte a = s.ram.byte a := by
  obtain ⟨r, hexec, hram⟩ := blockCommand_ok (f := s.encBlock (s.slotAt slot).key) (s := s.popped) hfit hv
  exact ⟨r, (step_command hb he hcmd (decide_eq_true hlt)).trans hexec, hram⟩

/-- The host's write of BC.DEC to CMD with BUSY = 0, and the step that completes the command. -/
theorem step_issued_bcDec {slot : BitVec 4} {s : State} {rest : List Event} (hb : s.busy = false)
    (hin : s.inbox = .engine :: rest) (hlt : slot.toNat < s.slots.length) (hv : (s.slotAt slot).valid = true)
    (hfit : s.off + s.len ≤ s.cfg.dataBytes) :
    ∃ t : State, step (hostAccess (.write 32 0x008 (encode (.bcDec slot))) s) = .next t ∧ t.result = .ok ∧
      (∀ k, k < s.len / 8 →
        t.ram.block (s.off + 8 * k) = s.decBlock (s.slotAt slot).key (s.ram.block (s.off + 8 * k))) ∧
      ∀ a, a < s.off ∨ s.off + 8 * (s.len / 8) ≤ a → t.ram.byte a = s.ram.byte a := by
  have hturn : (s.issue (encode (.bcDec slot))).nextEvent = .engine := by simp [State.nextEvent, hin]
  obtain ⟨r, hexec, hram⟩ := blockCommand_ok (f := s.decBlock (s.slotAt slot).key)
    (s := (s.issue (encode (.bcDec slot))).popped) hfit hv
  rw [hostAccess_issue hb]
  exact ⟨_, (step_command rfl hturn rfl (decide_eq_true hlt)).trans hexec, rfl, hram⟩

/-- Settles O23: BC.DEC turns each block back, and neither command writes another byte. -/
theorem blockRoundTrip : Obligations.BlockRoundTrip := by
  intro slot s rest hb hin hcmd hlt hv hmin hmax hfit
  obtain ⟨r, hstep, henc, hkept⟩ := step_bcEnc hb (by simp [State.nextEvent, hin]) hcmd hlt hv hfit
  obtain ⟨u, hissued, hok, hdec, hkept'⟩ := step_issued_bcDec
    (s := State.complete { s.popped with ram := r } .ok false) rfl (congrArg List.tail hin) hlt hv hfit
  have hblocks : ∀ k, k < s.len / 8 → u.ram.block (s.off + 8 * k) = s.ram.block (s.off + 8 * k) := fun k hk =>
    calc u.ram.block (s.off + 8 * k)
      _ = s.decBlock (s.slotAt slot).key (r.block (s.off + 8 * k)) := hdec k hk
      _ = s.decBlock (s.slotAt slot).key (s.encBlock (s.slotAt slot).key (s.ram.block (s.off + 8 * k))) := by
        rw [henc k hk]
      _ = s.ram.block (s.off + 8 * k) := s.decBlock_encBlock hmin hmax _
  exact ⟨_, u, hstep, hissued, rfl, hok,
    Ram.byte_eq_of_blocks hblocks fun a ha => (hkept' a ha).trans (hkept a ha), fun a ha => hkept a (.inr ha)⟩

end Sys2Proof.Machine

/-! PROOFS. The checksum commands (41_checksum.md): their checks, what CK.VERIFY and CK.APPEND answer for a valid window,
and CK.VERIFY after CK.APPEND. -/

namespace Sys2Proof.Machine

/-! ## The checks -/

/-- The window check, which both commands make first (60_exceptions.md R203, R204). -/
theorem exec_checksum_range {i : Instr} (hi : i = .ckVerify ∨ i = .ckAppend) {s : State}
    (h : s.cfg.dataBytes < s.off + s.len) : exec i s = .next (s.complete .errRange false) := by
  have hwindow : s.windowFits = false := s.windowFits_eq_false.2 h
  rcases hi with rfl | rfl
  · exact if_pos hwindow
  · exact if_pos hwindow

/-- The size check, which both commands make on a window inside the DATA RAM (41_checksum.md R131). -/
theorem exec_checksum_size {i : Instr} (hi : i = .ckVerify ∨ i = .ckAppend) {s : State}
    (hfit : s.off + s.len ≤ s.cfg.dataBytes) (h : s.len % 4 ≠ 0 ∨ s.len ≤ 4) :
    exec i s = .next (s.complete .errValidation false) := by
  have hwindow : ¬ s.windowFits = false := by simp [s.windowFits_eq_true.2 hfit]
  have hsize : checksumSizeOk s.len = false := (checksumSizeOk_eq_false s.len).2 h
  rcases hi with rfl | rfl
  · exact (if_neg hwindow).trans (if_pos hsize)
  · exact (if_neg hwindow).trans (if_pos hsize)

/-- A valid window inside the DATA RAM passes both checks (R131). -/
theorem checksum_checks_pass {s : State} (hfit : s.off + s.len ≤ s.cfg.dataBytes) (h4 : s.len % 4 = 0)
    (hlen : 4 < s.len) : ¬ s.windowFits = false ∧ ¬ checksumSizeOk s.len = false := by
  rw [s.windowFits_eq_false, checksumSizeOk_eq_false]
  omega

/-! ## CK.VERIFY -/

/-- CK.VERIFY past its checks compares the fold of words 0 to m-2 with word m-1 (R132). -/
theorem exec_ckVerify_valid {s : State} (hfit : s.off + s.len ≤ s.cfg.dataBytes) (h4 : s.len % 4 = 0)
    (hlen : 4 < s.len) : exec .ckVerify s = .next (s.complete .ok
      (decide (xorOfWords s.ram s.off (s.len / 4 - 1) = s.ram.le32 (s.off + 4 * (s.len / 4 - 1))))) := by
  obtain ⟨hwindow, hsize⟩ := checksum_checks_pass hfit h4 hlen
  have hlast : s.off + 4 * (s.len / 4 - 1) = s.off + s.len - 4 := by omega
  rw [← foldWords_eq, hlast]
  exact (if_neg hwindow).trans (if_neg hsize)

/-- Settles O26, check by check in the order of R204. -/
theorem ckVerifyResult : Obligations.CkVerifyResult := fun _ =>
  ⟨exec_checksum_range (.inl rfl), exec_checksum_size (.inl rfl), exec_ckVerify_valid⟩

/-! ## CK.APPEND -/

/-- The DATA RAM with the fold of the window's words 0 to m-2 in its last word, the value of R134;
`exec_ckAppend_valid` says that CK.APPEND leaves it. -/
def State.appendedRam (s : State) : Ram :=
  s.ram.putLe32 (s.off + s.len - 4) (xorOfWords s.ram s.off (s.len / 4 - 1))

/-- The appended word reads back. -/
theorem State.appendedRam_last (s : State) :
    s.appendedRam.le32 (s.off + s.len - 4) = xorOfWords s.ram s.off (s.len / 4 - 1) := s.ram.le32_putLe32 _ _

/-- No byte outside the last word is written (R135). -/
theorem State.appendedRam_byte {s : State} (hlen : 4 < s.len) {a : Nat}
    (h : a < s.off + s.len - 4 ∨ s.off + s.len ≤ a) : s.appendedRam.byte a = s.ram.byte a :=
  s.ram.byte_putLe32_outside _ (by omega)

/-- The model's fold of words 0 to m-3 and then the word at off + size - 8 is the fold of words 0 to m-2
(90_conflicts.md C1). -/
theorem foldWords_xor_last_eq_xorOfWords (r : Ram) (off : Nat) {size : Nat} (h4 : size % 4 = 0) (hlen : 4 < size) :
    foldWords r off (size / 4 - 2) ^^^ r.le32 (off + size - 8) = xorOfWords r off (size / 4 - 1) := by
  have haddr : off + size - 8 = off + 4 * (size / 4 - 2) := by omega
  have hcount : size / 4 - 1 = size / 4 - 2 + 1 := by omega
  rw [foldWords_eq, haddr, hcount, xorOfWords_succ]

/-- CK.APPEND past its checks (R133). -/
theorem exec_ckAppend_valid {s : State} (hfit : s.off + s.len ≤ s.cfg.dataBytes) (h4 : s.len % 4 = 0)
    (hlen : 4 < s.len) : exec .ckAppend s = .next (State.complete { s with ram := s.appendedRam } .ok false) := by
  obtain ⟨hwindow, hsize⟩ := checksum_checks_pass hfit h4 hlen
  rw [State.appendedRam, ← foldWords_xor_last_eq_xorOfWords s.ram s.off h4 hlen]
  exact (if_neg hwindow).trans (if_neg hsize)

/-- Settles O27, check by check in the order of R204. -/
theorem ckAppendResult : Obligations.CkAppendResult := fun s =>
  ⟨exec_checksum_range (.inr rfl), exec_checksum_size (.inr rfl), fun hfit h4 hlen =>
    ⟨_, exec_ckAppend_valid hfit h4 hlen, s.appendedRam_last, fun _ => State.appendedRam_byte hlen⟩⟩

/-! ## CK.VERIFY after CK.APPEND -/

/-- CK.APPEND leaves the words it folded, so their fold is what CK.VERIFY finds in the last word (R136). -/
theorem State.xorOfWords_appendedRam {s : State} (h4 : s.len % 4 = 0) (hlen : 4 < s.len) :
    xorOfWords s.appendedRam s.off (s.len / 4 - 1) = s.appendedRam.le32 (s.off + 4 * (s.len / 4 - 1)) := by
  have hlast : s.off + 4 * (s.len / 4 - 1) = s.off + s.len - 4 := by omega
  calc xorOfWords s.appendedRam s.off (s.len / 4 - 1)
    _ = xorOfWords s.ram s.off (s.len / 4 - 1) :=
      xorOfWords_congr fun _ _ ha => State.appendedRam_byte hlen (.inl (by omega))
    _ = s.appendedRam.le32 (s.off + s.len - 4) := s.appendedRam_last.symm
    _ = s.appendedRam.le32 (s.off + 4 * (s.len / 4 - 1)) := by rw [hlast]

/-- The host's write of a well-formed command to CMD with BUSY = 0, then the engine's turn: the command runs on the
issued state. -/
theorem step_issued {s : State} {rest : List Event} {i : Instr} (hb : s.busy = false) (hin : s.inbox = .engine :: rest)
    (hwf : i.wf s.slots.length = true) :
    step (hostAccess (.write 32 0x008 (encode i)) s) = exec i (s.issue (encode i)).popped := by
  rw [hostAccess_issue hb]
  exact step_command rfl (by simp [State.nextEvent, hin]) rfl hwf

/-- Settles O28: CK.VERIFY runs on the RAM that CK.APPEND leaves, and OFFSET and SIZE are as before. -/
theorem appendThenVerifySucceeds : Obligations.AppendThenVerifySucceeds := by
  intro s rest hb hin hcmd hfit h4 hlen
  have happend : step s = .next (State.complete { s.popped with ram := s.appendedRam } .ok false) :=
    (step_command hb (by simp [State.nextEvent, hin]) hcmd rfl).trans
      (exec_ckAppend_valid (s := s.popped) hfit h4 hlen)
  have hverify := (step_issued (s := State.complete { s.popped with ram := s.appendedRam } .ok false)
    (i := .ckVerify) rfl (congrArg List.tail hin) rfl).trans (exec_ckVerify_valid hfit h4 hlen)
  exact ⟨_, _, happend, hverify, rfl, rfl, decide_eq_true (State.xorOfWords_appendedRam h4 hlen), fun _ => rfl⟩

end Sys2Proof.Machine

/-! PROOFS. The obfuscator commands (42_obfuscator.md): their checks, what OBF.ENC and OBF.DEC leave in the window, the
round trip and what it does not restore, and the independence from the slot file. -/

namespace Sys2Proof.Machine

/-! ## The rule that both commands share -/

/-- The two checks of 42_obfuscator.md R150, in their order, and then the completion with `r` as the DATA RAM. -/
def obfCommand (r : Ram) (s : State) : Outcome :=
  if s.windowFits = false then s.raise .errRange
  else if obfSizeOk s.len = false then s.raise .errRange
  else State.completeOk { s with ram := r }

/-- Either check fails with ERR_RANGE. -/
theorem obfCommand_range {r : Ram} {s : State} (h : s.cfg.dataBytes < s.off + s.len ∨ s.len < 9) :
    obfCommand r s = .next (s.complete .errRange false) := by
  rw [← s.windowFits_eq_false, ← obfSizeOk_eq_false] at h
  by_cases hwindow : s.windowFits = false
  · exact if_pos hwindow
  · exact (if_neg hwindow).trans (if_pos (h.resolve_left hwindow))

theorem obfCommand_ok {r : Ram} {s : State} (hfit : s.off + s.len ≤ s.cfg.dataBytes) (hlen : 9 ≤ s.len) :
    obfCommand r s = .next (State.complete { s with ram := r } .ok false) := by
  have hwindow : ¬ s.windowFits = false := by simp [s.windowFits_eq_true.2 hfit]
  have hsize : ¬ obfSizeOk s.len = false := by rwa [obfSizeOk_eq_false, not_lt]
  exact (if_neg hwindow).trans (if_neg hsize)

/-- The shared rule reads no slot and writes none (R159). -/
theorem obfCommand_slots (r : Ram) (s : State) (slots : List Slot) :
    ∃ t, obfCommand r s = .next t ∧ t.slots = s.slots ∧
      obfCommand r { s with slots := slots } = .next { t with slots := slots } := by
  by_cases h : s.cfg.dataBytes < s.off + s.len ∨ s.len < 9
  · exact ⟨_, obfCommand_range h, rfl, obfCommand_range (s := { s with slots := slots }) h⟩
  · obtain ⟨hfit, hlen⟩ : s.off + s.len ≤ s.cfg.dataBytes ∧ 9 ≤ s.len := by omega
    exact ⟨_, obfCommand_ok hfit hlen, rfl, obfCommand_ok (s := { s with slots := slots }) hfit hlen⟩

/-! ## OBF.ENC -/

/-- The RAM that OBF.ENC leaves (R151): the encode loop, then its accumulator in the window's last 4 bytes. -/
def Ram.obfEncoded (r : Ram) (off size : Nat) (key : Word) : Ram :=
  (obfEncLoop off (obfWords size) key r).2.putLe32 (off + size - 4) (obfEncLoop off (obfWords size) key r).1

theorem exec_obfEnc (s : State) : exec .obfEnc s = obfCommand (s.ram.obfEncoded s.off s.len s.obfKey) s := rfl

/-- A grid word is XORed with the accumulator after it. -/
theorem Ram.obfEncoded_word (r : Ram) (off : Nat) {size : Nat} (key : Word) (hlen : 9 ≤ size) {j : Nat} (h1 : 1 ≤ j)
    (hj : j ≤ obfWords size) :
    (r.obfEncoded off size key).le32 (off + 4 * j) = r.le32 (off + 4 * j) ^^^ encAcc r off key j := by
  obtain ⟨-, hword, -⟩ := obfEncLoop_spec off (obfWords size) key r
  have hgrid := obfWords_grid hlen
  exact (Ram.le32_putLe32_disjoint _ _ (by omega)).trans (hword j h1 hj)

/-- The last 4 bytes hold the final accumulator. -/
theorem Ram.obfEncoded_last (r : Ram) (off size : Nat) (key : Word) :
    (r.obfEncoded off size key).le32 (off + size - 4) = encAcc r off key (obfWords size) :=
  (Ram.le32_putLe32 _ _ _).trans (obfEncLoop_spec off (obfWords size) key r).1

/-- The header, the gap before the last 4 bytes and every byte outside the window stay (R152). -/
theorem Ram.obfEncoded_byte (r : Ram) (off : Nat) {size : Nat} (key : Word) (hlen : 9 ≤ size) {a : Nat}
    (h : a < off + 4 ∨ (off + 4 * (obfWords size + 1) ≤ a ∧ a < off + size - 4) ∨ off + size ≤ a) :
    (r.obfEncoded off size key).byte a = r.byte a := by
  obtain ⟨-, -, hkept⟩ := obfEncLoop_spec off (obfWords size) key r
  have hgrid := obfWords_grid hlen
  exact (Ram.byte_putLe32_outside _ _ (by omega)).trans (hkept a (by omega))

/-- Settles O29: both checks, then the encoded window, word by word and byte by byte. -/
theorem obfEncResult : Obligations.ObfEncResult := fun s => by
  rw [exec_obfEnc]
  exact ⟨obfCommand_range, fun hfit hlen => ⟨_, obfCommand_ok hfit hlen,
    fun _ => s.ram.obfEncoded_word s.off s.obfKey hlen, s.ram.obfEncoded_last s.off s.len s.obfKey,
    fun _ => s.ram.obfEncoded_byte s.off s.obfKey hlen⟩⟩

/-! ## OBF.DEC -/

/-- The RAM that OBF.DEC leaves (R155): the decode loop, seeded with the window's last 4 bytes. -/
def Ram.obfDecoded (r : Ram) (off size : Nat) : Ram :=
  (obfDecLoop off (obfWords size) (r.le32 (off + size - 4)) r).2

theorem exec_obfDec (s : State) : exec .obfDec s = obfCommand (s.ram.obfDecoded s.off s.len) s := rfl

/-- A grid word is XORed with the accumulator at it. -/
theorem Ram.obfDecoded_word (r : Ram) (off size : Nat) {j : Nat} (h1 : 1 ≤ j) (hj : j ≤ obfWords size) :
    (r.obfDecoded off size).le32 (off + 4 * j) = r.le32 (off + 4 * j) ^^^
      decAcc r off (obfWords size) (r.le32 (off + size - 4)) (obfWords size - j) := by
  obtain ⟨-, hword, -⟩ := obfDecLoop_spec off (obfWords size) (r.le32 (off + size - 4)) r (obfWords size) le_rfl
  exact hword j (by omega) hj

/-- Every byte off the grid stays (R156). -/
theorem Ram.obfDecoded_byte (r : Ram) (off size : Nat) {a : Nat}
    (h : a < off + 4 ∨ off + 4 * (obfWords size + 1) ≤ a) : (r.obfDecoded off size).byte a = r.byte a := by
  obtain ⟨-, -, hkept⟩ := obfDecLoop_spec off (obfWords size) (r.le32 (off + size - 4)) r (obfWords size) le_rfl
  exact hkept a (by omega)

/-- The seed, the window's last 4 bytes, stays (R156). -/
theorem Ram.obfDecoded_last (r : Ram) (off : Nat) {size : Nat} (hlen : 9 ≤ size) :
    (r.obfDecoded off size).le32 (off + size - 4) = r.le32 (off + size - 4) := by
  have hgrid := obfWords_grid hlen
  exact Ram.le32_congr fun _ _ _ => r.obfDecoded_byte off size (by omega)

/-- Settles O30: the same checks, then the decoded window. -/
theorem obfDecResult : Obligations.ObfDecResult := fun s => by
  rw [exec_obfDec]
  exact ⟨obfCommand_range, fun hfit hlen => ⟨_, obfCommand_ok hfit hlen,
    fun _ => s.ram.obfDecoded_word s.off s.len, fun _ => s.ram.obfDecoded_byte s.off s.len⟩⟩

/-! ## The round trip -/

/-- RAMs that agree on the words 1 to n of a grid and off it agree on a byte. -/
theorem Ram.byte_eq_of_words {r q : Ram} {off n a : Nat}
    (hin : ∀ j, 1 ≤ j → j ≤ n → q.le32 (off + 4 * j) = r.le32 (off + 4 * j))
    (hout : a < off + 4 ∨ off + 4 * (n + 1) ≤ a → q.byte a = r.byte a) : q.byte a = r.byte a := by
  by_cases h : a < off + 4 ∨ off + 4 * (n + 1) ≤ a
  · exact hout h
  · have hbyte := Ram.byte_of_le32 (hin ((a - off) / 4) (by omega) (by omega)) ((a - off) % 4) (by omega)
    rwa [show off + 4 * ((a - off) / 4) + (a - off) % 4 = a by omega] at hbyte

/-- Over encoded words, from the final encode accumulator, the decode accumulator walks the encode accumulators back
(R157). -/
theorem decAcc_of_encoded {r q : Ram} {off n : Nat} {key : Word}
    (henc : ∀ j, 1 ≤ j → j ≤ n → q.le32 (off + 4 * j) = r.le32 (off + 4 * j) ^^^ encAcc r off key j) {t : Nat}
    (ht : t ≤ n) : decAcc q off n (encAcc r off key n) t = encAcc r off key (n - t) := by
  induction t with
  | zero => rfl
  | succ t ih =>
    obtain ⟨m, hm⟩ : ∃ m, n - t = m + 1 := ⟨n - t - 1, by omega⟩
    have hw := henc (m + 1) (by omega) (by omega)
    calc decAcc q off n (encAcc r off key n) (t + 1)
      _ = encAcc r off key (m + 1) - (q.le32 (off + 4 * (m + 1)) ^^^ encAcc r off key (m + 1)) := by
        rw [decAcc, ih (by omega), hm]
      _ = encAcc r off key (m + 1) - r.le32 (off + 4 * (m + 1)) := by
        rw [hw, BitVec.xor_assoc, BitVec.xor_self, BitVec.xor_zero]
      _ = encAcc r off key m := BitVec.add_sub_cancel _ _
      _ = encAcc r off key (n - (t + 1)) := by rw [show n - (t + 1) = m by omega]

/-- Decoding an encoded window gives back each grid word. -/
theorem Ram.obfDecoded_obfEncoded_word (r : Ram) (off : Nat) {size : Nat} (key : Word) (hlen : 9 ≤ size) {j : Nat}
    (h1 : 1 ≤ j) (hj : j ≤ obfWords size) :
    ((r.obfEncoded off size key).obfDecoded off size).le32 (off + 4 * j) = r.le32 (off + 4 * j) := by
  have hacc := decAcc_of_encoded (fun _ => r.obfEncoded_word off key hlen) (Nat.sub_le (obfWords size) j)
  rw [Ram.obfDecoded_word _ _ _ h1 hj, Ram.obfEncoded_last, hacc, Nat.sub_sub_self hj,
    Ram.obfEncoded_word _ _ _ hlen h1 hj, BitVec.xor_assoc, BitVec.xor_self, BitVec.xor_zero]

/-- Decoding an encoded window gives back every byte but the last 4 of the window (R157). -/
theorem Ram.obfDecoded_obfEncoded_byte (r : Ram) (off : Nat) {size : Nat} (key : Word) (hlen : 9 ≤ size) {a : Nat}
    (ha : a < off + size - 4 ∨ off + size ≤ a) :
    ((r.obfEncoded off size key).obfDecoded off size).byte a = r.byte a :=
  Ram.byte_eq_of_words (fun _ => r.obfDecoded_obfEncoded_word off key hlen) fun hgrid =>
    (Ram.obfDecoded_byte _ off size hgrid).trans (r.obfEncoded_byte off key hlen (by omega))

/-- Settles O31: OBF.DEC runs on the RAM that OBF.ENC leaves, and OFFSET and SIZE are as before. -/
theorem obfuscatorRoundTrip : Obligations.ObfuscatorRoundTrip := by
  intro s rest hb hin hcmd hfit hlen
  have hencode := (step_command hb (by simp [State.nextEvent, hin]) hcmd rfl).trans
    ((exec_obfEnc s.popped).trans (obfCommand_ok hfit hlen))
  have hdecode := (step_issued (i := .obfDec)
    (s := State.complete { s.popped with ram := s.ram.obfEncoded s.off s.len s.obfKey } .ok false)
    rfl (congrArg List.tail hin) rfl).trans ((exec_obfDec _).trans (obfCommand_ok hfit hlen))
  exact ⟨_, _, hencode, hdecode, rfl, rfl, fun _ => s.ram.obfDecoded_obfEncoded_byte s.off s.obfKey hlen,
    (Ram.obfDecoded_last _ s.off hlen).trans (s.ram.obfEncoded_last s.off s.len s.obfKey)⟩

/-! ## The slot file -/

/-- Settles O32: what the shared rule writes does not depend on the slot file either. -/
theorem obfuscatorIgnoresSessions : Obligations.ObfuscatorIgnoresSessions := by
  intro s slots i hi
  obtain rfl | rfl : i = .obfEnc ∨ i = .obfDec := by simpa using hi
  · exact obfCommand_slots (s.ram.obfEncoded s.off s.len s.obfKey) s slots
  · exact obfCommand_slots (s.ram.obfDecoded s.off s.len) s slots

end Sys2Proof.Machine

/-! PROOFS. The modulus descrambler (43_descrambler.md): its checks, the four steps as an invertible and XOR-linear map
of 128-byte buffers, and the modulus it leaves. -/

namespace Sys2Proof.Machine

/-! ## The checks -/

theorem exec_modDesc_range {s : State} (h : s.cfg.dataBytes < s.off + s.len) :
    exec .modDesc s = .next (s.complete .errRange false) := if_pos (s.windowFits_eq_false.2 h)

theorem exec_modDesc_size {s : State} (hfit : s.off + s.len ≤ s.cfg.dataBytes) (hlen : s.len ≠ 128) :
    exec .modDesc s = .next (s.complete .errValidation false) :=
  (if_neg (by simp [s.windowFits_eq_true.2 hfit])).trans (if_pos ((modSizeOk_eq_false s.len).2 hlen))

/-- MOD.DESC past its checks (R172). -/
theorem exec_modDesc_ok {s : State} (hfit : s.off + s.len ≤ s.cfg.dataBytes) (hlen : s.len = 128) :
    exec .modDesc s = .next (State.complete { s with ram := descramble s.off s.ram } .ok false) :=
  (if_neg (by simp [s.windowFits_eq_true.2 hfit])).trans (if_neg (by simp [modSizeOk_eq_false, hlen]))

/-- Settles O33, check by check in the order of R204, and then the four loops of R172. -/
theorem modDescResult : Obligations.ModDescResult := fun s =>
  ⟨exec_modDesc_range, exec_modDesc_size, fun hfit hlen => ⟨_, exec_modDesc_ok hfit hlen,
    fun _ => descramble_inside s.off s.ram, fun _ => descramble_outside s.off s.ram⟩⟩

/-! ## Steps 1 to 3 as one operation -/

/-- The bytes that `p` selects take in the bytes at their sources: the common form of the steps 1 to 3 of R172. -/
def xorWhere (p : Nat → Prop) [DecidablePred p] (src : Nat → Nat) (b : Nat → Byte) (i : Nat) : Byte :=
  if p i then b i ^^^ b (src i) else b i

theorem descStep1_eq_xorWhere : descStep1 = xorWhere (fun i => 64 ≤ i ∧ i < 128) (· - 64) := rfl

theorem descStep2_eq_xorWhere : descStep2 = xorWhere (fun i => 13 ≤ i ∧ i < 17) (· + 39) := rfl

theorem descStep3_eq_xorWhere : descStep3 = xorWhere (· < 64) (· + 64) := rfl

section

variable {p : Nat → Prop} [DecidablePred p] {src : Nat → Nat}

theorem xorWhere_of_pos (b : Nat → Byte) {i : Nat} (h : p i) : xorWhere p src b i = b i ^^^ b (src i) := if_pos h

theorem xorWhere_of_neg (b : Nat → Byte) {i : Nat} (h : ¬ p i) : xorWhere p src b i = b i := if_neg h

/-- Sources that are not selected themselves keep their bytes, so a second pass undoes the first (R173). -/
theorem xorWhere_xorWhere (hsrc : ∀ i, p i → ¬ p (src i)) (b : Nat → Byte) :
    xorWhere p src (xorWhere p src b) = b := by
  funext i
  by_cases h : p i
  · rw [xorWhere_of_pos _ h, xorWhere_of_pos b h, xorWhere_of_neg b (hsrc i h), BitVec.xor_assoc, BitVec.xor_self,
      BitVec.xor_zero]
  · rw [xorWhere_of_neg _ h, xorWhere_of_neg b h]

theorem xorWhere_xor (b c : Nat → Byte) :
    xorWhere p src (fun i => b i ^^^ c i) = fun i => xorWhere p src b i ^^^ xorWhere p src c i := by
  funext i
  by_cases h : p i
  · simp only [xorWhere_of_pos _ h]
    ac_rfl
  · simp only [xorWhere_of_neg _ h]

end

/-! ## The steps are invertible -/

theorem descStep1_descStep1 (b : Nat → Byte) : descStep1 (descStep1 b) = b := by
  rw [descStep1_eq_xorWhere]
  exact xorWhere_xorWhere (fun _ _ => by omega) b

theorem descStep2_descStep2 (b : Nat → Byte) : descStep2 (descStep2 b) = b := by
  rw [descStep2_eq_xorWhere]
  exact xorWhere_xorWhere (fun _ _ => by omega) b

theorem descStep3_descStep3 (b : Nat → Byte) : descStep3 (descStep3 b) = b := by
  rw [descStep3_eq_xorWhere]
  exact xorWhere_xorWhere (fun _ _ => by omega) b

/-- The index from which step 4 takes a byte. -/
def swapIndex (i : Nat) : Nat := if i < 4 then i + 77 else if 77 ≤ i ∧ i < 81 then i - 77 else i

theorem descStep4_apply (b : Nat → Byte) (i : Nat) : descStep4 b i = b (swapIndex i) := by
  unfold descStep4 swapIndex
  split
  · rfl
  · split <;> rfl

theorem swapIndex_swapIndex (i : Nat) : swapIndex (swapIndex i) = i := by
  unfold swapIndex
  split_ifs <;> omega

theorem swapIndex_lt {i : Nat} (h : i < 128) : swapIndex i < 128 := by
  unfold swapIndex
  split_ifs <;> omega

theorem descStep4_descStep4 (b : Nat → Byte) : descStep4 (descStep4 b) = b := by
  funext i
  rw [descStep4_apply, descStep4_apply, swapIndex_swapIndex]

/-- The four steps undone, the last one first: the forward scrambling of R173, which the unit does not have. -/
def scrambled (b : Nat → Byte) : Nat → Byte := descStep1 (descStep2 (descStep3 (descStep4 b)))

theorem scrambled_descrambled (b : Nat → Byte) : scrambled (descrambled b) = b := by
  rw [scrambled, descrambled, descStep4_descStep4, descStep3_descStep3, descStep2_descStep2, descStep1_descStep1]

theorem descrambled_scrambled (b : Nat → Byte) : descrambled (scrambled b) = b := by
  rw [scrambled, descrambled, descStep1_descStep1, descStep2_descStep2, descStep3_descStep3, descStep4_descStep4]

/-! ## The steps are linear -/

theorem descStep4_xor (b c : Nat → Byte) :
    descStep4 (fun i => b i ^^^ c i) = fun i => descStep4 b i ^^^ descStep4 c i := by
  funext i
  simp only [descStep4_apply]

/-- The descrambled XOR of two buffers is the XOR of the descrambled buffers (R173). -/
theorem descrambled_xor (b c : Nat → Byte) :
    descrambled (fun i => b i ^^^ c i) = fun i => descrambled b i ^^^ descrambled c i := by
  unfold descrambled
  rw [descStep1_eq_xorWhere, descStep2_eq_xorWhere, descStep3_eq_xorWhere, xorWhere_xor, xorWhere_xor, xorWhere_xor,
    descStep4_xor]

/-- The zero buffer is its own XOR with itself. -/
theorem descrambled_zero (i : Nat) : descrambled (fun _ => 0) i = 0 :=
  calc descrambled (fun _ => 0) i
    _ = descrambled (fun _ => 0) i ^^^ descrambled (fun _ => 0) i :=
      congrFun (descrambled_xor (fun _ => 0) fun _ => 0) i
    _ = 0 := BitVec.xor_self

/-! ## The steps stay inside the buffer -/

/-- Two buffers that hold the same 128 bytes. -/
def SameBuf (b c : Nat → Byte) : Prop := ∀ i, i < 128 → b i = c i

theorem SameBuf.symm {b c : Nat → Byte} (h : SameBuf b c) : SameBuf c b := fun i hi => (h i hi).symm

theorem SameBuf.trans {b c d : Nat → Byte} (h : SameBuf b c) (h' : SameBuf c d) : SameBuf b d :=
  fun i hi => (h i hi).trans (h' i hi)

theorem SameBuf.xorWhere {p : Nat → Prop} [DecidablePred p] {src : Nat → Nat} {b c : Nat → Byte} (h : SameBuf b c)
    (hsrc : ∀ i, p i → i < 128 → src i < 128) : SameBuf (xorWhere p src b) (xorWhere p src c) := fun i hi => by
  by_cases hp : p i
  · rw [xorWhere_of_pos b hp, xorWhere_of_pos c hp, h i hi, h (src i) (hsrc i hp hi)]
  · rw [xorWhere_of_neg b hp, xorWhere_of_neg c hp, h i hi]

section

variable {b c : Nat → Byte}

theorem SameBuf.descStep1 (h : SameBuf b c) : SameBuf (descStep1 b) (descStep1 c) :=
  h.xorWhere (p := fun i => 64 ≤ i ∧ i < 128) (src := (· - 64)) fun _ _ => by omega

theorem SameBuf.descStep2 (h : SameBuf b c) : SameBuf (descStep2 b) (descStep2 c) :=
  h.xorWhere (p := fun i => 13 ≤ i ∧ i < 17) (src := (· + 39)) fun _ _ => by omega

theorem SameBuf.descStep3 (h : SameBuf b c) : SameBuf (descStep3 b) (descStep3 c) :=
  h.xorWhere (p := (· < 64)) (src := (· + 64)) fun _ _ => by omega

theorem SameBuf.descStep4 (h : SameBuf b c) : SameBuf (descStep4 b) (descStep4 c) := fun i hi => by
  rw [descStep4_apply, descStep4_apply, h (swapIndex i) (swapIndex_lt hi)]

theorem SameBuf.descrambled (h : SameBuf b c) : SameBuf (descrambled b) (descrambled c) :=
  h.descStep1.descStep2.descStep3.descStep4

theorem SameBuf.scrambled (h : SameBuf b c) : SameBuf (scrambled b) (scrambled c) :=
  h.descStep4.descStep3.descStep2.descStep1

end

/-! ## The window as a buffer -/

/-- The `buf[i] = DATA[off + i]` of 43_descrambler.md. -/
def Ram.buf (r : Ram) (off i : Nat) : Byte := r.byte (off + i)

theorem Ram.buf_descramble (r : Ram) (off : Nat) :
    SameBuf ((descramble off r).buf off) (descrambled (r.buf off)) := fun _ => descramble_inside off r

/-- Every choice of `n` bytes stands in some DATA RAM. -/
theorem Ram.exists_buf_eq (off n : Nat) (y : Nat → Byte) : ∃ r : Ram, ∀ i, i < n → r.buf off i = y i := by
  induction n with
  | zero => exact ⟨⟨[], 0⟩, fun _ hi => absurd hi (Nat.not_lt_zero _)⟩
  | succ n ih =>
    obtain ⟨r, hr⟩ := ih
    refine ⟨r.put (off + n) (y n), fun i hi => ?_⟩
    rw [Ram.buf, Ram.byte_put]
    by_cases hin : i = n
    · rw [if_pos (by omega), hin]
    · rw [if_neg (by omega)]
      exact hr i (by omega)

/-- Settles O34: `scrambled` is the inverse of the four steps on both sides. -/
theorem modDescIsBijective : Obligations.ModDescIsBijective := by
  intro s hfit hlen
  refine ⟨fun r q t u ht hu hsame => ?_, fun y => ?_⟩
  · cases (exec_modDesc_ok (s := { s with ram := r }) hfit hlen).symm.trans ht
    cases (exec_modDesc_ok (s := { s with ram := q }) hfit hlen).symm.trans hu
    have hdesc : SameBuf (descrambled (r.buf s.off)) (descrambled (q.buf s.off)) :=
      (r.buf_descramble s.off).symm.trans (SameBuf.trans hsame (q.buf_descramble s.off))
    have hwindow := hdesc.scrambled
    rwa [scrambled_descrambled, scrambled_descrambled] at hwindow
  · obtain ⟨r, hr⟩ := Ram.exists_buf_eq s.off 128 (scrambled y)
    have hdesc : SameBuf (descrambled (r.buf s.off)) (descrambled (scrambled y)) := SameBuf.descrambled hr
    rw [descrambled_scrambled] at hdesc
    exact ⟨r, _, exec_modDesc_ok (s := { s with ram := r }) hfit hlen, rfl, (r.buf_descramble s.off).trans hdesc⟩

/-- The corner case of R172 that gives the modulus 0. -/
theorem Ram.buf_descramble_zero {r : Ram} {off : Nat} (h : SameBuf (r.buf off) fun _ => 0) :
    SameBuf ((descramble off r).buf off) fun _ => 0 :=
  (r.buf_descramble off).trans (h.descrambled.trans fun i _ => descrambled_zero i)

theorem Ram.buf_descramble_xor {r q p : Ram} {off : Nat}
    (h : SameBuf (p.buf off) fun i => r.buf off i ^^^ q.buf off i) :
    SameBuf ((descramble off p).buf off) fun i => (descramble off r).buf off i ^^^ (descramble off q).buf off i :=
  fun i hi =>
    calc (descramble off p).buf off i
      _ = descrambled (p.buf off) i := p.buf_descramble off i hi
      _ = descrambled (fun i => r.buf off i ^^^ q.buf off i) i := h.descrambled i hi
      _ = descrambled (r.buf off) i ^^^ descrambled (q.buf off) i := congrFun (descrambled_xor _ _) i
      _ = (descramble off r).buf off i ^^^ (descramble off q).buf off i := by
        rw [r.buf_descramble off i hi, q.buf_descramble off i hi]

/-- Settles O35: each step is linear and reads inside the buffer only. -/
theorem modDescIsLinear : Obligations.ModDescIsLinear := fun s hfit hlen r q p =>
  ⟨_, _, _, exec_modDesc_ok (s := { s with ram := r }) hfit hlen,
    exec_modDesc_ok (s := { s with ram := q }) hfit hlen,
    exec_modDesc_ok (s := { s with ram := p }) hfit hlen, Ram.buf_descramble_xor, Ram.buf_descramble_zero⟩

/-! ## The modulus -/

theorem Ram.read_succ (r : Ram) (off n : Nat) : r.read off (n + 1) = r.read off n ++ [r.byte (off + n)] := by
  simp [Ram.read, List.range_succ]

/-- Horner's rule: the fold over the bytes read is their big-endian sum, for every number of bytes. -/
theorem Ram.foldl_read_eq_sum (r : Ram) (off n : Nat) : (r.read off n).foldl (fun m b => m * 256 + b.toNat) 0 =
    ∑ i ∈ Finset.range n, (r.byte (off + i)).toNat * 256 ^ (n - 1 - i) := by
  induction n with
  | zero => rfl
  | succ n ih =>
    have hshift : ∀ i ∈ Finset.range n, (r.byte (off + i)).toNat * 256 ^ (n - 1 - i) * 256 =
        (r.byte (off + i)).toNat * 256 ^ (n - i) := fun i hi => by
      have hlt := Finset.mem_range.1 hi
      rw [mul_assoc, ← pow_succ, show n - 1 - i + 1 = n - i by omega]
    rw [Ram.read_succ, List.foldl_append, ih, Finset.sum_range_succ, List.foldl_cons, List.foldl_nil, Finset.sum_mul,
      Finset.sum_congr rfl hshift]
    simp

theorem modulus_eq_sum (off : Nat) (r : Ram) :
    modulus off r = ∑ i ∈ Finset.range 128, (r.byte (off + i)).toNat * 256 ^ (127 - i) :=
  r.foldl_read_eq_sum off 128

theorem modulus_of_zero {off : Nat} {r : Ram} (h : SameBuf (r.buf off) fun _ => 0) : modulus off r = 0 := by
  rw [modulus_eq_sum]
  refine Finset.sum_eq_zero fun i hi => ?_
  have hbyte : r.byte (off + i) = 0 := h i (Finset.mem_range.1 hi)
  simp [hbyte]

/-- Settles O36: an all-zero window stays zero, and so every term of the sum is 0. -/
theorem modulusIsBigEndian : Obligations.ModulusIsBigEndian :=
  ⟨modulus_eq_sum, fun _ hfit hlen hzero =>
    ⟨_, exec_modDesc_ok hfit hlen, rfl, modulus_of_zero (Ram.buf_descramble_zero hzero)⟩⟩

end Sys2Proof.Machine

/-! PROOFS. The command lifecycle (60_exceptions.md): the issue, the completion of every command and its result code, the
window check, the interrupt output, and that the steps of a run neither fault nor keep a command in flight. -/

namespace Sys2Proof.Machine

/-! ## Issue -/

/-- Settles O8: a write to CMD issues with BUSY = 0 and is one of the dropped writes of R65 with BUSY = 1. -/
theorem commandWriteIssues : Obligations.CommandWriteIssues := fun _ v =>
  ⟨fun hidle => hostAccess_issue hidle v, fun hb => hostAccess_write_busy hb (.reg (r := .cmd) rfl) rfl v⟩

/-! ## The result codes of a completion -/

theorem Completed.done {i : Instr} {s t : State} (c : Completed i s t) : t.done = true := by rw [c.shape]

theorem Completed.ie {i : Instr} {s t : State} (c : Completed i s t) : t.ie = s.ie := by rw [c.shape]

/-- Settles O9, from the record that every completion writes (R201). -/
theorem everyCommandCompletes : Obligations.EveryCommandCompletes := fun i s =>
  have ⟨t, ht, c⟩ := exec_completed i s
  ⟨t, ht, c.busy, c.done, c.ckOk⟩

/-- Settles O11: the fields that the completion record leaves free are those that an error code fixes (R202). -/
theorem errorsChangeOnlyStatus : Obligations.ErrorsChangeOnlyStatus := by
  intro i s t h herr
  have c := completed_of_exec h
  obtain ⟨hck, hslots, hram⟩ := c.onError herr
  have hshape := c.shape
  rwa [hck, hslots, hram] at hshape

/-! ## The window check -/

/-- The commands without a window operand (30_encoding.md R81). -/
theorem usesWindow_eq_false_iff {i : Instr} :
    i.usesWindow = false ↔ ∃ slot, i = .sessInitf slot ∨ i = .sessClose slot := by
  cases i <;> simp [Instr.usesWindow]

/-- The window check is the first check of every command that makes it (R203, R204). -/
theorem exec_window_range {i : Instr} {s : State} (hi : i.usesWindow = true) (h : s.cfg.dataBytes < s.off + s.len) :
    exec i s = .next (s.complete .errRange false) := by
  have hwindow : s.windowFits = false := s.windowFits_eq_false.2 h
  cases i with
  | sessInitf slot | sessClose slot => cases hi
  | sessInitk slot | bcEnc slot | bcDec slot | ckVerify | ckAppend | obfEnc | obfDec | modDesc => exact if_pos hwindow

/-- What ERR_RANGE says of the command that ended with it: its window leaves the DATA RAM, or it is an obfuscator command
and its window is too small (R202, 42_obfuscator.md R150). -/
def RangeCause (i : Instr) (s : State) : Prop :=
  i.usesWindow = true ∧ (s.cfg.dataBytes < s.off + s.len ∨ (i = .obfEnc ∨ i = .obfDec) ∧ s.len < 9)

/-- A check of a command's rule whose failure has the cause that its code says. -/
theorem Answers.causedCheck {Q : Prop} {s : State} {c : Prop} [Decidable c] {e : Result} {x : Outcome}
    (herr : c → e = .errRange → Q) (hnext : Answers (fun t => t.result = .errRange → Q) x) :
    Answers (fun t => t.result = .errRange → Q) (if c then s.raise e else x) := by
  by_cases hc : c
  · rw [if_pos hc]
    exact .next (herr hc)
  · rwa [if_neg hc]

/-- No command ends with ERR_RANGE for another cause. -/
theorem exec_rangeCause (i : Instr) (s : State) : Answers (fun t => t.result = .errRange → RangeCause i s) (exec i s) := by
  have window : i.usesWindow = true → s.windowFits = false → Result.errRange = .errRange → RangeCause i s :=
    fun hi h _ => ⟨hi, .inl (s.windowFits_eq_false.1 h)⟩
  have small : i = .obfEnc ∨ i = .obfDec → obfSizeOk s.len = false → Result.errRange = .errRange → RangeCause i s :=
    fun hi h _ => ⟨by rcases hi with rfl | rfl <;> rfl, .inr ⟨hi, (obfSizeOk_eq_false _).1 h⟩⟩
  cases i with
  | sessInitk slot =>
    exact .causedCheck (window rfl) (.causedCheck nofun (.causedCheck nofun (.next nofun)))
  | sessInitf slot => exact .causedCheck nofun (.next nofun)
  | sessClose slot => exact .next nofun
  | bcEnc slot | bcDec slot | ckVerify | ckAppend | modDesc =>
    exact .causedCheck (window rfl) (.causedCheck nofun (.next nofun))
  | obfEnc => exact .causedCheck (window rfl) (.causedCheck (small (.inl rfl)) (.next nofun))
  | obfDec => exact .causedCheck (window rfl) (.causedCheck (small (.inr rfl)) (.next nofun))

/-- Settles O39: the two causes of ERR_RANGE, of which a window inside the DATA RAM leaves the second only. -/
theorem windowCheckComesFirst : Obligations.WindowCheckComesFirst := by
  refine fun i s => ⟨exec_window_range, fun hfit t ht hrange => ?_, fun hi => ?_, usesWindow_eq_false_iff⟩
  · obtain ⟨-, hout | hsmall⟩ := exec_rangeCause i s t ht hrange
    · exact absurd hout (Nat.not_lt.2 hfit)
    · exact hsmall
  · obtain ⟨t, ht, -⟩ := exec_completed i s
    refine ⟨t, ht, fun hrange => ?_⟩
    obtain ⟨huses, -⟩ := exec_rangeCause i s t ht hrange
    simp [hi] at huses

/-! ## The engine's turn -/

theorem nextEvent_of_inbox_nil {s : State} (hb : s.busy = true) (hin : s.inbox = []) : s.nextEvent = .engine := by
  simp [State.nextEvent, hb, hin]

theorem nextEvent_of_inbox_cons {s : State} {e : Event} {rest : List Event} (hin : s.inbox = e :: rest) :
    s.nextEvent = e := by
  simp [State.nextEvent, hin]

/-- The step at the engine's turn is exec of the decoded command (R201). -/
theorem step_decoded {s : State} {i : Instr} (hb : s.busy = true) (he : s.nextEvent = .engine)
    (hd : decode s.slots.length s.cmd = .ok i) : step s = exec i s.popped :=
  (step_engine hb he).trans (completion_decoded (s := s.popped) hd)

/-- With BUSY = 0 the engine's turn leaves the unit as it is. -/
theorem step_engine_idle {s : State} (hidle : s.busy = false) (he : s.nextEvent = .engine) : step s = .next s.popped := by
  unfold step nextMove
  rw [he]
  exact if_neg (by simp [hidle])

theorem State.popped_of_cons {s : State} {e : Event} {rest : List Event} (hin : s.inbox = e :: rest) :
    s.popped = { s with inbox := rest } := by
  simp [State.popped, hin]

theorem State.popped_of_nil {s : State} (hin : s.inbox = []) : s.popped = s := by
  unfold State.popped
  rw [hin, List.tail_nil, ← hin]

/-- Settles O7. -/
theorem stepRunsDecodedCommand : Obligations.StepRunsDecodedCommand := by
  refine fun s i rest => ⟨fun hb hd hin => ?_, fun hb hd hin => ?_, fun hidle hin => ?_⟩
  · rw [step_decoded hb (nextEvent_of_inbox_nil hb hin) hd, s.popped_of_nil hin]
  · rw [step_decoded hb (nextEvent_of_inbox_cons hin) hd, s.popped_of_cons hin]
  · rw [step_engine_idle hidle (nextEvent_of_inbox_cons hin), s.popped_of_cons hin]

/-- The engine's move while BUSY = 1 completes whatever word CMD holds (R201, R204). -/
theorem Moved.engine_completes {s t : State} (h : Moved s .engine t) (hb : s.busy = true) :
    t.busy = false ∧ t.done = true ∧ t.ie = s.ie := by
  cases h with
  | completed _ _ hexec =>
    have c := completed_of_exec hexec
    exact ⟨c.busy, c.done, c.ie⟩
  | bad => exact ⟨rfl, rfl, rfl⟩
  | idle hidle => simp [hidle] at hb

theorem step_engine_completes {s : State} (hb : s.busy = true) (he : s.nextEvent = .engine) :
    ∃ t, step s = .next t ∧ t.busy = false ∧ t.done = true ∧ t.ie = s.ie := by
  rcases step_cases s with ⟨t, ht, hm⟩ | ⟨-, -, hhost, -⟩
  · rw [he] at hm
    exact ⟨t, ht, hm.engine_completes hb⟩
  · simp [he] at hhost

/-! ## The interrupt output -/

theorem State.irq_of_done {s : State} (h : s.done = true) : s.irq = s.ie := by simp [State.irq, h]

theorem State.irq_of_not_done {s : State} (h : s.done = false) : s.irq = false := by simp [State.irq, h]

theorem State.irq_of_not_ie {s : State} (h : s.ie = false) : s.irq = false := by simp [State.irq, h]

/-- An access clears DONE only as a write of 1 to STATUS bit 1 or as an issue (R200, R207). -/
theorem hostAccess_clears_done {s : State} {a : Access} (h : s.done = true) (ht : (hostAccess a s).done = false) :
    (∃ v : Word, a = .write 32 0x004 v ∧ v.getLsbD 1 = true) ∨ (s.busy = false ∧ ∃ v : Word, a = .write 32 0x008 v) := by
  rcases hostAccess_cases a s with ⟨v, rfl, hs⟩ | ⟨v, rfl, hidle, -⟩ | ⟨-, hkeep, -⟩
  · refine .inl ⟨v, rfl, ?_⟩
    simpa [hs, h] using ht
  · exact .inr ⟨hidle, v, rfl⟩
  · simp [hkeep, h] at ht

/-- A step that clears DONE is a reset, an acknowledgement or an issue. -/
theorem Moved.clears_done {s t : State} (h : Moved s.popped s.nextEvent t) (hs : s.done = true) (ht : t.done = false) :
    s.nextEvent = .reset ∨ (∃ v : Word, s.nextAccess = some (.write 32 0x004 v) ∧ v.getLsbD 1 = true) ∨
    (s.busy = false ∧ ∃ v : Word, s.nextAccess = some (.write 32 0x008 v)) := by
  rcases h.cases_access with ⟨a, ha, hacc⟩ | ⟨hreset, -⟩ | ⟨-, -, -, hdone, -⟩ | ⟨-, -, hhost⟩
  · rw [hacc] at ht
    rcases hostAccess_clears_done (s := s.popped) hs ht with ⟨v, rfl, hv⟩ | ⟨hidle, v, rfl⟩
    · exact .inr (.inl ⟨v, ha, hv⟩)
    · exact .inr (.inr ⟨hidle, v, ha⟩)
  · exact .inl hreset
  · simp [hdone] at ht
  · have hkeep : t.done = s.done := by
      rw [hhost]
      rfl
    simp [hkeep, hs] at ht

/-- Settles O51. -/
theorem interruptFollowsDoneAndIe : Obligations.InterruptFollowsDoneAndIe := by
  refine ⟨fun i s t h => ?_, fun s v hv => ?_, fun s v hidle => ?_, fun s v hv => ?_, fun _ _ => rfl, fun _ => rfl,
    fun s hb he => ?_, fun s t h => (step_next h).clears_done⟩
  · have c := completed_of_exec h
    exact (State.irq_of_done c.done).trans c.ie
  · rw [hostAccess_writeReg (r := .status) rfl]
    exact State.irq_of_not_done (by simp [State.writeReg, hv])
  · rw [hostAccess_issue hidle]
    exact State.irq_of_not_done rfl
  · rw [hostAccess_writeReg (r := .ctrl) rfl]
    exact ⟨State.irq_of_not_ie hv, rfl⟩
  · obtain ⟨t, ht, -, hdone, hie⟩ := step_engine_completes hb he
    exact ⟨t, ht, hdone, (State.irq_of_done hdone).trans hie⟩

/-! ## Runs -/

/-- A step of a host program whose jumps go to its lines answers a next state, and takes a move off the list (R220). -/
theorem step_answers {s : State} (ok : s.host.targetsOk) :
    ∃ t, step s = .next t ∧ t.host.targetsOk ∧ t.inbox = s.inbox.tail := by
  rcases step_cases s with ⟨t, ht, hm⟩ | ⟨-, -, -, hbad⟩
  · exact ⟨t, ht, hm.targets ok, hm.inbox⟩
  · exact absurd ok hbad

/-- Settles O13. -/
theorem stepNeverFaults : Obligations.StepNeverFaults := by
  refine ⟨fun s => ?_, fun s ok => ?_⟩
  · rcases step_cases s with ⟨t, ht, -⟩ | ⟨n, hn, -⟩
    · exact .inl ⟨t, ht⟩
    · exact .inr ⟨n, hn⟩
  · obtain ⟨t, ht, hok, -⟩ := step_answers ok
    exact ⟨t, ht, hok⟩

theorem run_succ {s t : State} (h : step s = .next t) (k : Nat) : core.run (k + 1) s = core.run k t := by
  have hcore : core.step s = .next t := h
  simp only [Host.Core.run, hcore]

/-- The engine's default turn comes after the listed moves at the latest (R219; log 6), and finds BUSY = 0 or completes. -/
theorem run_reaches_idle {moves : List Event} : ∀ {s : State}, s.inbox = moves → s.host.targetsOk →
    ∃ (k : Nat) (t : State), k ≤ moves.length + 1 ∧ core.run k s = Host.Outcome.next t ∧ t.busy = false := by
  induction moves with
  | nil =>
    intro s hin _
    cases hb : s.busy with
    | false => exact ⟨0, s, Nat.zero_le _, rfl, hb⟩
    | true =>
      obtain ⟨t, ht, hidle, -⟩ := step_engine_completes hb (nextEvent_of_inbox_nil hb hin)
      exact ⟨1, t, Nat.le_refl _, run_succ ht 0, hidle⟩
  | cons e rest ih =>
    intro s hin ok
    obtain ⟨t, ht, hok, htail⟩ := step_answers ok
    obtain ⟨k, u, hk, hrun, hidle⟩ := ih (htail.trans (congrArg List.tail hin)) hok
    exact ⟨k + 1, u, Nat.succ_le_succ hk, (run_succ ht k).trans hrun, hidle⟩

/-- Settles O12. -/
theorem commandInFlightCompletes : Obligations.CommandInFlightCompletes :=
  fun _ _ ok => run_reaches_idle rfl ok

end Sys2Proof.Machine

/-! PROOFS. The reset input (70_reset_and_hazards.md): the step of a reset move and what it leaves in the unit. -/

namespace Sys2Proof.Machine

/-- The reset input takes effect in one step, whatever the unit is doing (70_reset_and_hazards.md R230, R232). -/
theorem step_reset {s : State} (he : s.nextEvent = .reset) : step s = .next s.popped.resetUnit := by
  unfold step nextMove
  rw [he]
  rfl

/-- After the reset input no DATA byte has been written, so each reads as this reset's draw (R231). -/
theorem State.resetUnit_byte (s : State) (a : Nat) :
    s.resetUnit.ram.byte a = Config.ramInit (s.ram.epoch + 1) a := rfl

theorem State.resetUnit_slots_length (s : State) : s.resetUnit.slots.length = s.slots.length := by simp

theorem State.valid_of_mem_resetUnit_slots {s : State} {x : Slot} (hx : x ∈ s.resetUnit.slots) : x.valid = false := by
  rw [s.resetUnit_slots] at hx
  rw [List.eq_of_mem_replicate hx]
  rfl

/-- Settles O52: the reset move answers the cleared unit, of which each clause is a reading. -/
theorem resetInputClearsTheUnit : Obligations.ResetInputClearsTheUnit := by
  intro s rest hin
  have hstep : step s = .next { s with inbox := rest }.resetUnit :=
    s.popped_of_cons hin ▸ step_reset (nextEvent_of_inbox_cons hin)
  exact ⟨_, hstep, State.resetUnit_ie _, State.resetUnit_busy _, State.resetUnit_done _, State.resetUnit_ckOk _,
    State.resetUnit_haz _, State.resetUnit_result _, State.resetUnit_cmd _, State.resetUnit_offset _,
    State.resetUnit_size _, State.resetUnit_obfKey _, State.irq_of_not_done (State.resetUnit_done _),
    State.resetUnit_slots_length _, fun _ => State.valid_of_mem_resetUnit_slots, State.resetUnit_byte _⟩

end Sys2Proof.Machine
